-- ==== Sys2Proof/Word.lean ====
section
/-! DEFINITION. The two word types of the machine (spec 10_state.md R12, 30_encoding.md R51). -/

namespace Sys2Proof

/-- A memory byte, a general register, a timer. -/
abbrev Byte := BitVec 8

/-- An instruction word, the program counter, the index register, a stack slot. -/
abbrev Word := BitVec 16

end Sys2Proof
end

