-- ==== Sys2Proof/Config.lean ====
section
/-! DEFINITION. The parameters of the hardware (00_scope.md R5) and the one free value, the random byte. -/

namespace Sys2Proof

/-- `MEM_SIZE`: bytes in the AddressSpace (R5, R34). -/
@[reducible, simp] def Config.memSize : Nat := 4096

/-- `PROG_BASE`: first byte of the loaded program and reset value of pc (R5). -/
@[reducible, simp] def Config.progBase : Nat := 0x200

/-- The largest program image, `MEM_SIZE` less `PROG_BASE` (R5, R136). -/
@[reducible, simp] def Config.maxImage : Nat := 3584

/-- `FB_W`: FrameBuffer columns (R5, R24). -/
@[reducible, simp] def Config.fbWidth : Nat := 64

/-- `FB_H`: FrameBuffer rows (R5, R24). -/
@[reducible, simp] def Config.fbHeight : Nat := 32

/-- `SPRITE_W`: pixels of one sprite row, one byte (R5). -/
@[reducible, simp] def Config.spriteWidth : Nat := 8

/-- `INSTR_BYTES`: bytes of every instruction (R5, R51). -/
@[reducible, simp] def Config.instrBytes : Nat := 2

/-- `GLYPH_BYTES`: bytes of one built-in glyph (R5, R92). -/
@[reducible, simp] def Config.glyphBytes : Nat := 5

/-- `MAX_DEPTH`: the deepest nesting of calls that does not fault (R5, R20). -/
@[reducible, simp] def Config.maxDepth : Nat := 15

/-- FREE VALUE (log 2): the byte of the n-th draw when the environment's list of bytes is empty. It has no body, so
nothing can be proved of its value: the random byte is "supplied by the environment ... under no law at all"
(44_random.md R96, 92_eei_decisions.md D20). -/
opaque Config.drawByte : Nat → Byte

end Sys2Proof
end

