-- ==== Sys2Proof/Syntax.lean ====
section
/-! DEFINITION. The 34 instructions, one constructor per row of spec/opcode_table.json (30_encoding.md R57), and
the steps of the machine's environment (00_scope.md R8). -/

namespace Sys2Proof

/-- A register number, V0 to VF (10_state.md R13). -/
abbrev Reg := Fin 16

/-- A key number (10_state.md R25). -/
abbrev Key := Fin 16

/-- The `nnn` field, a 12-bit address (30_encoding.md R52). -/
abbrev Addr := BitVec 12

/-- The `n` field, a sprite's row count (30_encoding.md R52). -/
abbrev Nibble := BitVec 4

/-- The instruction set, in the order of the opcode table (30_encoding.md R57). Bits that decode ignores (R58) are no
operands. Every operand's range is carried by its type (R52, R54). -/
inductive Instr where
  | cls
  | ret
  | jp (nnn : Addr)
  | call (nnn : Addr)
  | seByte (x : Reg) (nn : Byte)
  | sneByte (x : Reg) (nn : Byte)
  | seReg (x y : Reg)
  | ldByte (x : Reg) (nn : Byte)
  | addByte (x : Reg) (nn : Byte)
  | ldReg (x y : Reg)
  | orReg (x y : Reg)
  | andReg (x y : Reg)
  | xorReg (x y : Reg)
  | addReg (x y : Reg)
  | subReg (x y : Reg)
  | shr (x : Reg)
  | subnReg (x y : Reg)
  | shl (x : Reg)
  | sneReg (x y : Reg)
  | ldI (nnn : Addr)
  | jpV0 (nnn : Addr)
  | rnd (x : Reg) (nn : Byte)
  | drw (x y : Reg) (n : Nibble)
  | skp (x : Reg)
  | sknp (x : Reg)
  | ldVxDt (x : Reg)
  | ldVxK (x : Reg)
  | ldDtVx (x : Reg)
  | ldStVx (x : Reg)
  | addIVx (x : Reg)
  | ldFVx (x : Reg)
  | ldBVx (x : Reg)
  | ldMemVx (x : Reg)
  | ldVxMem (x : Reg)
  deriving DecidableEq, Repr

/-- The steps the outside world can make a running machine take (00_scope.md R8). The loader's steps are not among
them: it acts "only before the first Cycle" (70_reset_and_hazards.md R136). -/
inductive EnvStep where
  | cycle
  | timerTick
  | keyEvent (k : Key) (pressed : Bool)
  | frameRead
  | initializeProcessor
  deriving DecidableEq, Repr

end Sys2Proof
end

