-- ==== Sys2Proof/WellFormed.lean ====
section
/-! DEFINITION. What must be checked of terms that come from outside. An instruction needs no check of its own: the
bounds of its operands (a register 0 to 15, `nn` 8 bits, `nnn` 12 bits, `n` 4 bits: 30_encoding.md R52) are carried by
the operands' types, so an ill-formed instruction cannot be written down. What the loader brings does need one. -/

namespace Sys2Proof

/-- A program image fits above 0x200: the precondition L ≤ 3584 of LoadImage (70_reset_and_hazards.md R136, log 16). -/
def imageWellFormed (image : List Byte) : Bool :=
  decide (image.length ≤ Config.maxImage)

/-- A block of font data lies inside the region [0x000, 0x200) that is reserved for it (20_memory.md R43,
70_reset_and_hazards.md R136). -/
def fontWellFormed (base : Nat) (glyphs : List Byte) : Bool :=
  decide (base + glyphs.length ≤ Config.progBase)

end Sys2Proof
end

