-- ==== Sys2Proof/Decode.lean ====
section
/-! DEFINITION. The decoder, total on every word and every list of bytes (30_encoding.md R55 to R61), and the encoder
and the opcode map (R57) written from the same table. The numeric values are the spec's (R57; log 9). -/

namespace Sys2Proof

/-! ## Fields of the instruction word (R52) -/

/-- `op` = w[15:12], the primary group. -/
def opField (w : Word) : BitVec 4 := w.extractLsb' 12 4

/-- `x` = w[11:8], the index of VX. -/
def xField (w : Word) : Reg := (w.extractLsb' 8 4).toFin

/-- `y` = w[7:4], the index of VY. -/
def yField (w : Word) : Reg := (w.extractLsb' 4 4).toFin

/-- `n` = w[3:0]. -/
def nField (w : Word) : Nibble := w.extractLsb' 0 4

/-- `nn` = w[7:0]. -/
def nnField (w : Word) : Byte := w.extractLsb' 0 8

/-- `nnn` = w[11:0]. -/
def nnnField (w : Word) : Addr := w.extractLsb' 0 12

/-! ## Decode -/

/-- The group an Unknown word belongs to, one per row of the table of R59: the name a word is rejected by. -/
inductive Unknown where
  | group0
  | group8
  | groupE
  | groupF
  deriving DecidableEq, Repr

/-- Why a list of bytes holds no instruction: its first word is Unknown, or it holds no whole word. -/
inductive Reject where
  | unknown (g : Unknown)
  | truncated
  deriving DecidableEq, Repr

/-- Group 0x0 compares the whole word (R56, mask 0xFFFF; log 10). -/
def decodeGroup0 (w : Word) : Except Unknown Instr :=
  if w = 0x00E0 then .ok .cls
  else if w = 0x00EE then .ok .ret
  else .error .group0

/-- Group 0x8 selects on the low nibble (R56, mask 0xF00F). SHR and SHL ignore the Y field (R58). -/
def decodeGroup8 (w : Word) : Except Unknown Instr :=
  match (nField w).toNat with
  | 0x0 => .ok (.ldReg (xField w) (yField w))
  | 0x1 => .ok (.orReg (xField w) (yField w))
  | 0x2 => .ok (.andReg (xField w) (yField w))
  | 0x3 => .ok (.xorReg (xField w) (yField w))
  | 0x4 => .ok (.addReg (xField w) (yField w))
  | 0x5 => .ok (.subReg (xField w) (yField w))
  | 0x6 => .ok (.shr (xField w))
  | 0x7 => .ok (.subnReg (xField w) (yField w))
  | 0xE => .ok (.shl (xField w))
  | _ => .error .group8

/-- Group 0xE selects on the low byte (R56, mask 0xF0FF; log 10). -/
def decodeGroupE (w : Word) : Except Unknown Instr :=
  match (nnField w).toNat with
  | 0x9E => .ok (.skp (xField w))
  | 0xA1 => .ok (.sknp (xField w))
  | _ => .error .groupE

/-- Group 0xF selects on the low byte (R56, mask 0xF0FF). -/
def decodeGroupF (w : Word) : Except Unknown Instr :=
  match (nnField w).toNat with
  | 0x07 => .ok (.ldVxDt (xField w))
  | 0x0A => .ok (.ldVxK (xField w))
  | 0x15 => .ok (.ldDtVx (xField w))
  | 0x18 => .ok (.ldStVx (xField w))
  | 0x1E => .ok (.addIVx (xField w))
  | 0x29 => .ok (.ldFVx (xField w))
  | 0x33 => .ok (.ldBVx (xField w))
  | 0x55 => .ok (.ldMemVx (xField w))
  | 0x65 => .ok (.ldVxMem (xField w))
  | _ => .error .groupF

/-- Decode in two levels (R55): the high nibble selects a primary group, and groups 0x0, 0x8, 0xE and 0xF have a
secondary selector. Groups 0x5 and 0x9 do not examine their low nibble (R58). -/
def decodeWord (w : Word) : Except Unknown Instr :=
  match (opField w).toNat with
  | 0x0 => decodeGroup0 w
  | 0x1 => .ok (.jp (nnnField w))
  | 0x2 => .ok (.call (nnnField w))
  | 0x3 => .ok (.seByte (xField w) (nnField w))
  | 0x4 => .ok (.sneByte (xField w) (nnField w))
  | 0x5 => .ok (.seReg (xField w) (yField w))
  | 0x6 => .ok (.ldByte (xField w) (nnField w))
  | 0x7 => .ok (.addByte (xField w) (nnField w))
  | 0x8 => decodeGroup8 w
  | 0x9 => .ok (.sneReg (xField w) (yField w))
  | 0xA => .ok (.ldI (nnnField w))
  | 0xB => .ok (.jpV0 (nnnField w))
  | 0xC => .ok (.rnd (xField w) (nnField w))
  | 0xD => .ok (.drw (xField w) (yField w) (nField w))
  | 0xE => decodeGroupE w
  | _ => decodeGroupF w

/-- The word of two fetched bytes: the byte at the lower address is bits 15 to 8 (20_memory.md R36). -/
def wordOfBytes (hi lo : Byte) : Word := hi ++ lo

/-- The two bytes of a word in memory order, the high byte first (20_memory.md R36). -/
def bytesOfWord (w : Word) : List Byte := [w.extractLsb' 8 8, w.extractLsb' 0 8]

/-- The decoder on bytes: the first instruction of the list and the bytes after it (R51, R61). -/
def decode : List Byte → Except Reject (Instr × List Byte)
  | hi :: lo :: rest =>
    match decodeWord (wordOfBytes hi lo) with
    | .ok i => .ok (i, rest)
    | .error g => .error (.unknown g)
  | _ => .error .truncated

/-! ## Encode -/

/-- The four bits of a register number. -/
def regBits (r : Reg) : BitVec 4 := BitVec.ofFin r

/-- Format A: op, nnn (R53). -/
def formatA (op : BitVec 4) (nnn : Addr) : Word := op ++ nnn

/-- Format XB: op, x, nn (R53); format X with a selector byte has the same places. -/
def formatXB (op : BitVec 4) (x : Reg) (nn : Byte) : Word := op ++ regBits x ++ nn

/-- Formats XY and XYN: op, x, y and a low nibble (R53). -/
def formatXYN (op : BitVec 4) (x y : Reg) (n : Nibble) : Word := op ++ regBits x ++ regBits y ++ n

/-- The canonical word of an instruction: the column `encoding` of opcode_table.json, with 0 in every bit that decode
ignores (R58). -/
def encode : Instr → Word
  | .cls => 0x00E0
  | .ret => 0x00EE
  | .jp nnn => formatA 0x1 nnn
  | .call nnn => formatA 0x2 nnn
  | .seByte x nn => formatXB 0x3 x nn
  | .sneByte x nn => formatXB 0x4 x nn
  | .seReg x y => formatXYN 0x5 x y 0x0
  | .ldByte x nn => formatXB 0x6 x nn
  | .addByte x nn => formatXB 0x7 x nn
  | .ldReg x y => formatXYN 0x8 x y 0x0
  | .orReg x y => formatXYN 0x8 x y 0x1
  | .andReg x y => formatXYN 0x8 x y 0x2
  | .xorReg x y => formatXYN 0x8 x y 0x3
  | .addReg x y => formatXYN 0x8 x y 0x4
  | .subReg x y => formatXYN 0x8 x y 0x5
  | .shr x => formatXYN 0x8 x 0 0x6
  | .subnReg x y => formatXYN 0x8 x y 0x7
  | .shl x => formatXYN 0x8 x 0 0xE
  | .sneReg x y => formatXYN 0x9 x y 0x0
  | .ldI nnn => formatA 0xA nnn
  | .jpV0 nnn => formatA 0xB nnn
  | .rnd x nn => formatXB 0xC x nn
  | .drw x y n => formatXYN 0xD x y n
  | .skp x => formatXB 0xE x 0x9E
  | .sknp x => formatXB 0xE x 0xA1
  | .ldVxDt x => formatXB 0xF x 0x07
  | .ldVxK x => formatXB 0xF x 0x0A
  | .ldDtVx x => formatXB 0xF x 0x15
  | .ldStVx x => formatXB 0xF x 0x18
  | .addIVx x => formatXB 0xF x 0x1E
  | .ldFVx x => formatXB 0xF x 0x29
  | .ldBVx x => formatXB 0xF x 0x33
  | .ldMemVx x => formatXB 0xF x 0x55
  | .ldVxMem x => formatXB 0xF x 0x65

/-- The bytes an assembler places in memory for an instruction. -/
def encodeBytes (i : Instr) : List Byte := bytesOfWord (encode i)

/-! ## The opcode map -/

/-- The `match` and `mask` columns of an instruction's row (R57): a word `w` selects the row when
`w &&& mask = match`. -/
def rowMatchMask : Instr → Word × Word
  | .cls => (0x00E0, 0xFFFF)
  | .ret => (0x00EE, 0xFFFF)
  | .jp _ => (0x1000, 0xF000)
  | .call _ => (0x2000, 0xF000)
  | .seByte _ _ => (0x3000, 0xF000)
  | .sneByte _ _ => (0x4000, 0xF000)
  | .seReg _ _ => (0x5000, 0xF000)
  | .ldByte _ _ => (0x6000, 0xF000)
  | .addByte _ _ => (0x7000, 0xF000)
  | .ldReg _ _ => (0x8000, 0xF00F)
  | .orReg _ _ => (0x8001, 0xF00F)
  | .andReg _ _ => (0x8002, 0xF00F)
  | .xorReg _ _ => (0x8003, 0xF00F)
  | .addReg _ _ => (0x8004, 0xF00F)
  | .subReg _ _ => (0x8005, 0xF00F)
  | .shr _ => (0x8006, 0xF00F)
  | .subnReg _ _ => (0x8007, 0xF00F)
  | .shl _ => (0x800E, 0xF00F)
  | .sneReg _ _ => (0x9000, 0xF000)
  | .ldI _ => (0xA000, 0xF000)
  | .jpV0 _ => (0xB000, 0xF000)
  | .rnd _ _ => (0xC000, 0xF000)
  | .drw _ _ _ => (0xD000, 0xF000)
  | .skp _ => (0xE09E, 0xF0FF)
  | .sknp _ => (0xE0A1, 0xF0FF)
  | .ldVxDt _ => (0xF007, 0xF0FF)
  | .ldVxK _ => (0xF00A, 0xF0FF)
  | .ldDtVx _ => (0xF015, 0xF0FF)
  | .ldStVx _ => (0xF018, 0xF0FF)
  | .addIVx _ => (0xF01E, 0xF0FF)
  | .ldFVx _ => (0xF029, 0xF0FF)
  | .ldBVx _ => (0xF033, 0xF0FF)
  | .ldMemVx _ => (0xF055, 0xF0FF)
  | .ldVxMem _ => (0xF065, 0xF0FF)

/-- The bits of an instruction's words that decode examines or that are an operand: all but the low nibble of 5XY- and
9XY- and the Y field of 8X-6 and 8X-E (R58; column `encoding` of opcode_table.json). -/
def usedBits : Instr → Word
  | .seReg _ _ => 0xFFF0
  | .sneReg _ _ => 0xFFF0
  | .shr _ => 0xFF0F
  | .shl _ => 0xFF0F
  | _ => 0xFFFF

/-! ## The table's numbering -/

/-- The word whose bits are `w`, numbered as the table numbers them; a bit at or above `nbits` is 0. -/
def tableWord (nbits w : Nat) : Word := BitVec.ofNat 16 (w % 2 ^ nbits)

/-- The instruction the decoder reads from an instruction whose bits are `w`: its bytes laid out as the hardware stores
them, given to `decode`. -/
def decodeTableWord (nbits w : Nat) : Option Instr :=
  match decode (bytesOfWord (tableWord nbits w)) with
  | .ok (i, _) => some i
  | .error _ => none

end Sys2Proof
end

