-- ==== Sys2Proof/Machine/State.lean ====
section
/-! DEFINITION. The complete state of the c8emu CORE (10_state.md R12), as plain data, the state after reset (R32), and
the reasons a step can stop. -/

namespace Sys2Proof.Machine

/-- MEM as the list of its bytes that differ from what an unlisted address reads as, in rising order of address
(log 3; `Memory.wf` of Machine/Memory.lean says the form). -/
abbrev Memory := List Host.Cell

/-- FB by rows: `fb[y][x]` is the pixel in column x and row y, `true` when lit (10_state.md R24). -/
abbrev Frame := Vector (Vector Bool 64) 32

/-- The four fatal faults (60_exceptions.md R109, codes 2 to 5). -/
inductive FatalFault where
  | stackOverflow
  | stackUnderflow
  | addressOutOfRange
  | keyIndexOutOfRange
  deriving DecidableEq, Repr

/-- The report of an UnknownInstruction: the pair (A, w) "offered to the host" (60_exceptions.md R112). -/
structure Report where
  addr : Word
  word : Word
  deriving DecidableEq, Repr

/-- The state of the machine (10_state.md R12). The last four fields are the model's own: what the CORE has reported to
the host (log 7), which steps the environment takes next (log 1), and the bytes it supplies to RND (log 2). -/
structure State where
  /-- V0 to VF (R13); V15 is also the flag (R14). -/
  v : Vector Byte 16
  /-- I (R15). -/
  index : Word
  /-- pc (R16). -/
  pc : Word
  /-- The call-stack slots (R19). -/
  stack : Vector Word 16
  /-- sp, the slot of the most recent return address; 0 when the stack is empty (R19). -/
  sp : Fin 16
  /-- DT (R21). -/
  dt : Byte
  /-- ST (R22). -/
  st : Byte
  /-- MEM (R23). -/
  mem : Memory
  /-- FB (R24). -/
  fb : Frame
  /-- KEY, `true` when held down (R25). -/
  key : Vector Bool 16
  /-- HALT, 0 while running (R26). -/
  halt : BitVec 3
  /-- HALT_PC (R27). -/
  haltPc : Word
  /-- HALT_INFO (R27). -/
  haltInfo : Word
  /-- UNK (R28). -/
  unk : Bool
  /-- The reports emitted so far, newest first (60_exceptions.md R112). -/
  reports : List Report
  /-- The steps the environment takes next, first one first; when it is empty the next step is a Cycle
  (00_scope.md R8). -/
  schedule : List EnvStep
  /-- The bytes the environment has ready for RND, next one first (44_random.md R96). -/
  draws : List Byte
  /-- How many bytes RND has drawn; it indexes the free value `Config.drawByte`. -/
  drawCount : Nat
  deriving DecidableEq, Repr

/-- The reasons a step ends in a fault: NONE. A fatal fault of 60_exceptions.md R109 is TAKEN: it latches HALT, HALT_PC
and HALT_INFO (R111) and the step answers that next state, after which a Cycle changes nothing (R26). Nobody raises a
`Fault`, so there is nothing safe or unsafe to say of one (log 6). -/
inductive Fault
  deriving DecidableEq, Repr

/-- The reasons a step is refused. -/
inductive Refusal where
  /-- Raised only by an arm of `exec` whose instruction has no meaning yet; safe. No arm raises it: every instruction
  of the table has its meaning. -/
  | notModelled (mnemonic : String)
  deriving DecidableEq, Repr

/-- What a meaning answers. -/
abbrev Result := Host.Outcome State Fault Refusal

/-- The machine after construction and Initialize (10_state.md R32, 70_reset_and_hazards.md R134, R135). FB is
"created cleared". MEM and KEY are launch parameters there (R5): here nothing is listed in memory (log 3) and every key
is released, the spec's usual value (log 4); `launch` of Machine/External.lean takes both as arguments. -/
def State.reset : State where
  v := Vector.replicate 16 0
  index := 0
  pc := 0x200
  stack := Vector.replicate 16 0
  sp := 0
  dt := 0
  st := 0
  mem := []
  fb := Vector.replicate 32 (Vector.replicate 64 false)
  key := Vector.replicate 16 false
  halt := 0
  haltPc := 0
  haltInfo := 0
  unk := false
  reports := []
  schedule := []
  draws := []
  drawCount := 0

end Sys2Proof.Machine
end

