-- ==== Sys2Proof/Machine/Memory.lean ====
section
/-! DEFINITION. The AddressSpace: one byte read and written, spans of bytes, and the range test (20_memory.md R34 to
R42). -/

namespace Sys2Proof.Machine

/-- What an address that nothing is listed for reads as (log 3). -/
def Memory.unlisted (_a : Nat) : Byte := 0

/-- The byte at address `a`. -/
def Memory.read : Memory → Nat → Byte
  | [], a => Memory.unlisted a
  | (b, v) :: m, a => if a = b then v else Memory.read m a

/-- The cell of `v` at `a` before the cells of `m`, or `m` alone when `v` is what an unlisted address reads as. -/
def Memory.cons (a : Nat) (v : Byte) (m : Memory) : Memory :=
  if v = Memory.unlisted a then m else (a, v) :: m

/-- Memory with the byte `v` at address `a`, in canonical form again. -/
def Memory.write : Memory → Nat → Byte → Memory
  | [], a, v => Memory.cons a v []
  | (b, w) :: m, a, v =>
    if a < b then Memory.cons a v ((b, w) :: m)
    else if a = b then Memory.cons a v m
    else (b, w) :: Memory.write m a v

/-- The canonical form above the address `lo`: addresses strictly rising from `lo`, each below 4096, and no entry equal
to what an unlisted address reads as. -/
def Memory.wfFrom : Nat → Memory → Bool
  | _, [] => true
  | lo, (a, v) :: m =>
    decide (lo ≤ a) && decide (a < Config.memSize) && decide (v ≠ Memory.unlisted a) && Memory.wfFrom (a + 1) m

/-- The canonical form of memory: equal memories are equal lists. -/
def Memory.wf (m : Memory) : Bool := Memory.wfFrom 0 m

/-- The bytes `vs` at `a`, `a + 1`, ..., lowest address first (R39). -/
def Memory.writeBytes : Memory → Nat → List Byte → Memory
  | m, _, [] => m
  | m, a, v :: vs => Memory.writeBytes (Memory.write m a v) (a + 1) vs

/-- The range test of R38 to R40: the whole run of `n` bytes at `addr` lies inside 0 to 4095. The sum is an unbounded
integer sum (log 11). -/
def inRange (addr n : Nat) : Bool := decide (addr + n ≤ Config.memSize)

/-- `MemRead(addr, n)` (R38); `none` where it raises AddressOutOfRange. -/
def memRead (m : Memory) (addr n : Nat) : Option (List Byte) :=
  if inRange addr n then some ((List.range n).map fun k => Memory.read m (addr + k)) else none

/-- `MemWrite(addr, n, v)` (R39), n the length of `vs`; `none` where it raises AddressOutOfRange, "before any byte is
written". -/
def memWrite (m : Memory) (addr : Nat) (vs : List Byte) : Option Memory :=
  if inRange addr vs.length then some (Memory.writeBytes m addr vs) else none

end Sys2Proof.Machine
end

