-- ==== Sys2Proof/Machine/Ops.lean ====
section
/-! DEFINITION. The named operations over the state: reading and writing each piece of it, taking a fatal fault
(60_exceptions.md R111), reporting an unknown word (R112) and Initialize, the one way out of the halted state (R125). -/

namespace Sys2Proof.Machine

/-! ## Reading and writing one piece -/

/-- `V[r]` (00_scope.md R7). -/
def readReg (s : State) (r : Reg) : Byte := s.v[r]

/-- `FB[x, y]`, column x and row y (R7, 10_state.md R24). -/
def Frame.pixel (fb : Frame) (x : Fin 64) (y : Fin 32) : Bool := fb[y][x]

/-- `KEY[k]`, the query `is_down` (R7, 10_state.md R25). -/
def keyDown (s : State) (k : Key) : Bool := s.key[k]

/-- The byte at an address, as the machine reads it. -/
def readByte (s : State) (a : Nat) : Byte := Memory.read s.mem a

/-- The whole register file replaced. -/
def setV (v : Vector Byte 16) (s : State) : State := { s with v := v }

/-- `V[r] <- b`. No register is hard-wired (10_state.md R13). -/
def setReg (r : Reg) (b : Byte) (s : State) : State := setV (s.v.set r b) s

/-- `I <- w`. -/
def setIndex (w : Word) (s : State) : State := { s with index := w }

/-- `pc <- w`. -/
def setPc (w : Word) (s : State) : State := { s with pc := w }

/-- `sp <- k`. -/
def setSp (k : Fin 16) (s : State) : State := { s with sp := k }

/-- `stack[k] <- w`. -/
def setSlot (k : Fin 16) (w : Word) (s : State) : State := { s with stack := s.stack.set k w }

/-- `DT <- b`. -/
def setDt (b : Byte) (s : State) : State := { s with dt := b }

/-- `ST <- b`. -/
def setSt (b : Byte) (s : State) : State := { s with st := b }

/-- MEM replaced. -/
def setMem (m : Memory) (s : State) : State := { s with mem := m }

/-- FB replaced. -/
def setFb (fb : Frame) (s : State) : State := { s with fb := fb }

/-- `KEY[k] <- pressed`. -/
def setKey (k : Key) (pressed : Bool) (s : State) : State := { s with key := s.key.set k pressed }

/-- HALT, HALT_PC and HALT_INFO, which are written together (10_state.md R27). -/
def setLatches (code : BitVec 3) (at_ info : Word) (s : State) : State :=
  { s with halt := code, haltPc := at_, haltInfo := info }

/-- UNK set and one report handed to the host. -/
def addReport (r : Report) (s : State) : State := { s with unk := true, reports := r :: s.reports }

/-- UNK cleared. -/
def clearUnk (s : State) : State := { s with unk := false }

/-- The environment's remaining steps. -/
def setSchedule (l : List EnvStep) (s : State) : State := { s with schedule := l }

/-- The environment's remaining bytes, and the count of bytes drawn. -/
def setDraws (l : List Byte) (n : Nat) (s : State) : State := { s with draws := l, drawCount := n }

/-! ## The program counter -/

/-- The advance of R17: `pc <- pc + 2`, before decode. -/
def advance (s : State) : State := setPc (s.pc + 2) s

/-- The address A the current word was fetched from, seen from its execute phase: pc already holds A + 2
(10_state.md R17; log 8). -/
def instrAddr (s : State) : Word := s.pc - 2

/-- The further advance of a skip (41_conditional_skip.md R69). -/
def skipIf (c : Bool) (s : State) : State := if c then setPc (s.pc + 2) s else s

/-! ## Writing a result and its flag -/

/-- The result goes to V[x] first and the flag to V[15] last (10_state.md R14). -/
def writeFlagged (x : Reg) (result flag : Byte) (s : State) : State := setReg 15 flag (setReg x result s)

/-- `V[k] <- bs[k]` for every k below the length of `bs` (43_memory_index.md R95). -/
def writeRun (bs : List Byte) (s : State) : State :=
  setV (Vector.ofFn fun r : Fin 16 => (bs[r.val]?).getD s.v[r]) s

/-! ## The call stack -/

/-- "a CALL increments sp then stores pc" (10_state.md R19). -/
def push (w : Word) (s : State) : State := setSlot (s.sp + 1) w (setSp (s.sp + 1) s)

/-- "a RETURN loads pc from the current sp then decrements sp"; the slot keeps its value (R19, R20; log 14). -/
def pop (s : State) : State := setSp (s.sp - 1) (setPc s.stack[s.sp] s)

/-! ## The random source -/

/-- `draw()`: the next byte of the environment, or the free value when it has none ready (44_random.md R96). -/
def nextDraw (s : State) : Byte :=
  match s.draws with
  | b :: _ => b
  | [] => Config.drawByte s.drawCount

/-- The state after one byte is drawn. -/
def afterDraw (s : State) : State := setDraws s.draws.tail (s.drawCount + 1) s

/-! ## Faults and reports -/

/-- The codes of R109. -/
def faultCode : FatalFault → BitVec 3
  | .stackOverflow => 2
  | .stackUnderflow => 3
  | .addressOutOfRange => 4
  | .keyIndexOutOfRange => 5

/-- `raise F(info)`: HALT, HALT_PC and HALT_INFO latched and nothing else written (R111). `at_` is the address the
current word was fetched from, or the pc whose fetch failed. -/
def raise (f : FatalFault) (at_ info : Word) (s : State) : State := setLatches (faultCode f) at_ info s

/-- A fatal fault taken in the execute phase, where pc = A + 2 (R111): the machine goes on to this next state, halted
(log 6). -/
def raised (f : FatalFault) (info : Word) (s : State) : Result := .next (raise f (instrAddr s) info s)

/-- `report UnknownInstruction(w)` for the word `w` fetched from `a`: UNK set, the pair (A, w) emitted, nothing else
(R112). -/
def reportUnknown (a w : Word) (s : State) : State := addReport ⟨a, w⟩ s

/-- `Initialize()` (70_reset_and_hazards.md R135), the only exit from the halted state (60_exceptions.md R125): the
Processor's registers and the latches as after reset, while MEM, FB and KEY stay as they are (log 14). -/
def initializeProcessor (s : State) : State :=
  setV (Vector.replicate 16 0) <| setIndex 0 <| setPc (BitVec.ofNat 16 Config.progBase) <| setSp 0 <|
    setDt 0 <| setSt 0 <| setLatches 0 0 0 <| clearUnk { s with stack := Vector.replicate 16 0 }

end Sys2Proof.Machine
end

