-- ==== Sys2Proof/Machine/Operands.lean ====
section
/-! DEFINITION. The operand forms: immediates (30_encoding.md R54), the key named by a register's value
(41_conditional_skip.md R74), the bytes of a block transfer and of the decimal store (43_memory_index.md R89 to
R95). -/

namespace Sys2Proof.Machine

/-- `zext_16(nnn)`. -/
def addrWord (nnn : Addr) : Word := nnn.setWidth 16

/-- `zext_16(b)` of a register's value. -/
def byteWord (b : Byte) : Word := b.setWidth 16

/-- The key a register's value names; `none` for a value of 16 or more, which raises KeyIndexOutOfRange (R74;
log 12). -/
def keyOfByte (b : Byte) : Option Key :=
  if h : b.toNat < 16 then some ⟨b.toNat, h⟩ else none

/-- The effective address of a transfer's first byte: I, as an integer (R89). -/
def dataAddr (s : State) : Nat := s.index.toNat

/-- `[V[0], V[1], ..., V[x]]` (R94). -/
def regRun (x : Reg) (s : State) : List Byte := s.v.toList.take (x.val + 1)

/-- The hundreds, tens and ones of a byte (R93). -/
def decimalDigits (b : Byte) : List Byte :=
  [BitVec.ofNat 8 (b.toNat / 100), BitVec.ofNat 8 (b.toNat / 10 % 10), BitVec.ofNat 8 (b.toNat % 10)]

/-- The key the key wait stores: the least k with KEY[k] (10_state.md R25, 47_key_wait.md R107). -/
def leastKeyDown (s : State) : Option Key := (List.finRange 16).find? fun k => keyDown s k

end Sys2Proof.Machine
end

