-- ==== Sys2Proof/Machine/Flags.lean ====
section
/-! DEFINITION. The values VF receives (10_state.md R29): always 0 or 1 (R14), computed from values read before the
instruction wrote anything (42_register_alu.md R76). -/

namespace Sys2Proof.Machine

/-- A flag as the byte VF receives. -/
def flagByte (c : Bool) : Byte := if c then 1 else 0

/-- ADD Vx,Vy: the unsigned sum exceeds 255 (R84). -/
def carryFlag (a b : Byte) : Byte := flagByte (decide (a.toNat + b.toNat > 255))

/-- SUB and SUBN: the first operand is strictly greater than the second (R85, R87; 90_conflicts.md C1; log 13). -/
def greaterFlag (a b : Byte) : Byte := flagByte (decide (a.toNat > b.toNat))

/-- SHR: bit 0 before the shift (R86). -/
def lowBitFlag (a : Byte) : Byte := flagByte (a.getLsbD 0)

/-- SHL: bit 7 before the shift (R88). -/
def highBitFlag (a : Byte) : Byte := flagByte (a.getLsbD 7)

end Sys2Proof.Machine
end

