-- ==== Sys2Proof/Machine/Alu.lean ====
section
/-! DEFINITION. The meanings of the eleven register load and arithmetic instructions (42_register_alu.md). `Byte`
arithmetic wraps modulo 256 (R76). -/

namespace Sys2Proof.Machine

/-- `LD Vx, byte` (R78). -/
def execLdByte (x : Reg) (nn : Byte) (s : State) : Result := .next (setReg x nn s)

/-- `ADD Vx, byte` (R79): no flag. -/
def execAddByte (x : Reg) (nn : Byte) (s : State) : Result := .next (setReg x (readReg s x + nn) s)

/-- `LD Vx, Vy` (R80). -/
def execLdReg (x y : Reg) (s : State) : Result := .next (setReg x (readReg s y) s)

/-- `OR Vx, Vy` (R81): VF is not written as a flag (log 13). -/
def execOrReg (x y : Reg) (s : State) : Result := .next (setReg x (readReg s x ||| readReg s y) s)

/-- `AND Vx, Vy` (R82): VF is not written as a flag (log 13). -/
def execAndReg (x y : Reg) (s : State) : Result := .next (setReg x (readReg s x &&& readReg s y) s)

/-- `XOR Vx, Vy` (R83): VF is not written as a flag (log 13). -/
def execXorReg (x y : Reg) (s : State) : Result := .next (setReg x (readReg s x ^^^ readReg s y) s)

/-- `ADD Vx, Vy` (R84). -/
def execAddReg (x y : Reg) (s : State) : Result :=
  let a := readReg s x
  let b := readReg s y
  .next (writeFlagged x (a + b) (carryFlag a b) s)

/-- `SUB Vx, Vy` (R85): VF = 1 only when strictly greater (log 13). -/
def execSubReg (x y : Reg) (s : State) : Result :=
  let a := readReg s x
  let b := readReg s y
  .next (writeFlagged x (a - b) (greaterFlag a b) s)

/-- `SHR Vx` (R86): VY takes no part (log 13). -/
def execShr (x : Reg) (s : State) : Result :=
  let a := readReg s x
  .next (writeFlagged x (a >>> 1) (lowBitFlag a) s)

/-- `SUBN Vx, Vy` (R87): VF = 1 only when strictly greater (log 13). -/
def execSubnReg (x y : Reg) (s : State) : Result :=
  let a := readReg s x
  let b := readReg s y
  .next (writeFlagged x (b - a) (greaterFlag b a) s)

/-- `SHL Vx` (R88): VY takes no part (log 13). -/
def execShl (x : Reg) (s : State) : Result :=
  let a := readReg s x
  .next (writeFlagged x (a <<< 1) (highBitFlag a) s)

end Sys2Proof.Machine
end

