-- ==== Sys2Proof/Machine/ControlTransfer.lean ====
section
/-! DEFINITION. The meanings of JP, JP V0, CALL and RET (40_control_transfer.md). Each runs on a state whose pc already
holds A + 2 (R64). -/

namespace Sys2Proof.Machine

/-- `JP addr` (R65). -/
def execJp (nnn : Addr) (s : State) : Result := .next (setPc (addrWord nnn) s)

/-- `JP V0, addr` (R66): the sum modulo 65536, not reduced to 12 bits (log 11). -/
def execJpV0 (nnn : Addr) (s : State) : Result := .next (setPc (addrWord nnn + byteWord (readReg s 0)) s)

/-- `CALL addr` (R67). -/
def execCall (nnn : Addr) (s : State) : Result :=
  if s.sp = 15 then raised .stackOverflow (addrWord nnn) s
  else .next (setPc (addrWord nnn) (push s.pc s))

/-- `RET` (R68). -/
def execRet (s : State) : Result :=
  if s.sp = 0 then raised .stackUnderflow 0 s else .next (pop s)

end Sys2Proof.Machine
end

