-- ==== Sys2Proof/Machine/Display.lean ====
section
/-! DEFINITION. The sprite compositor and the meanings of DRW and CLS (45_display.md). -/

namespace Sys2Proof.Machine

/-- The pixel that column `c` of sprite row `r` falls on: toroidal, not clamped (R99; log 13). -/
def targetPixel (x y : Byte) (r c : Nat) : Fin 64 × Fin 32 :=
  (Fin.ofNat 64 (x.toNat + c), Fin.ofNat 32 (y.toNat + r))

/-- The pixels under the set bits of one sprite row, leftmost first; bit 7 of the byte is column 0 (R99). -/
def rowTargets (x y : Byte) (r : Nat) (row : Byte) : List (Fin 64 × Fin 32) :=
  ((List.range Config.spriteWidth).filter fun c => row.getLsbD (7 - c)).map (targetPixel x y r)

/-- The pixels under the set bits of the sprite whose rows are numbered from `r`, top row first (R99). -/
def spriteTargets (x y : Byte) : Nat → List Byte → List (Fin 64 × Fin 32)
  | _, [] => []
  | r, row :: rows => rowTargets x y r row ++ spriteTargets x y (r + 1) rows

/-- `FB[px, py] <- not FB[px, py]`. -/
def Frame.toggle (fb : Frame) (p : Fin 64 × Fin 32) : Frame :=
  fb.set p.2 (fb[p.2].set p.1 (!Frame.pixel fb p.1 p.2))

/-- One set sprite bit: the pixel is tested for collision and then turned over (R99). -/
def blitPixel (acc : Frame × Bool) (p : Fin 64 × Fin 32) : Frame × Bool :=
  (Frame.toggle acc.1 p, acc.2 || Frame.pixel acc.1 p.1 p.2)

/-- `Blit(x, y, rows)`: the new FrameBuffer and whether a lit pixel took part (R99). -/
def blit (fb : Frame) (x y : Byte) (rows : List Byte) : Frame × Bool :=
  (spriteTargets x y 0 rows).foldl blitPixel (fb, false)

/-- All 2048 pixels false. -/
def Frame.clear : Frame := Vector.replicate 32 (Vector.replicate 64 false)

/-- `DRW Vx, Vy, nibble` (R100): the coordinates and the rows are read first, VF is written last (log 13). -/
def execDrw (x y : Reg) (n : Nibble) (s : State) : Result :=
  let a := readReg s x
  let b := readReg s y
  match memRead s.mem (dataAddr s) n.toNat with
  | none => raised .addressOutOfRange s.index s
  | some rows =>
    let drawn := blit s.fb a b rows
    .next (setReg 15 (flagByte drawn.2) (setFb drawn.1 s))

/-- `CLS` (R101): VF is not written. -/
def execCls (s : State) : Result := .next (setFb Frame.clear s)

end Sys2Proof.Machine
end

