-- ==== Sys2Proof/Machine/KeyWait.lean ====
section
/-! DEFINITION. The meaning of the key wait (47_key_wait.md). -/

namespace Sys2Proof.Machine

/-- `LD Vx, K` (R107): with no key down the advance is undone, so that the same word is fetched again; else V[x] gets
the least key that is down. -/
def execLdVxK (x : Reg) (s : State) : Result :=
  match leastKeyDown s with
  | none => .next (setPc (s.pc - 2) s)
  | some k => .next (setReg x (BitVec.ofNat 8 k.val) s)

end Sys2Proof.Machine
end

