-- ==== Sys2Proof/Machine/MemoryIndex.lean ====
section
/-! DEFINITION. The meanings of the six memory and index instructions (43_memory_index.md). The three transfers leave I
unchanged and fault before any byte moves (R89; log 11, log 13). -/

namespace Sys2Proof.Machine

/-- `LD I, addr` (R90). -/
def execLdI (nnn : Addr) (s : State) : Result := .next (setIndex (addrWord nnn) s)

/-- `ADD I, Vx` (R91): modulo 65536, no flag, no range test (log 13). -/
def execAddIVx (x : Reg) (s : State) : Result := .next (setIndex (s.index + byteWord (readReg s x)) s)

/-- `LD F, Vx` (R92): five times the whole byte (90_conflicts.md C2; log 13). -/
def execLdFVx (x : Reg) (s : State) : Result :=
  .next (setIndex (BitVec.ofNat 16 Config.glyphBytes * byteWord (readReg s x)) s)

/-- `MemWrite(I, n, bs)` as an instruction's effect: all bytes stored, or AddressOutOfRange(I) (20_memory.md R39). -/
def storeAtIndex (bs : List Byte) (s : State) : Result :=
  match memWrite s.mem (dataAddr s) bs with
  | none => raised .addressOutOfRange s.index s
  | some m => .next (setMem m s)

/-- `LD B, Vx` (R93). -/
def execLdBVx (x : Reg) (s : State) : Result := storeAtIndex (decimalDigits (readReg s x)) s

/-- `LD [I], Vx` (R94). -/
def execLdMemVx (x : Reg) (s : State) : Result := storeAtIndex (regRun x s) s

/-- `LD Vx, [I]` (R95). -/
def execLdVxMem (x : Reg) (s : State) : Result :=
  match memRead s.mem (dataAddr s) (x.val + 1) with
  | none => raised .addressOutOfRange s.index s
  | some bs => .next (writeRun bs s)

end Sys2Proof.Machine
end

