-- ==== Sys2Proof/Machine/Random.lean ====
section
/-! DEFINITION. The meaning of RND (44_random.md). -/

namespace Sys2Proof.Machine

/-- `RND Vx, byte` (R97): exactly one byte is drawn, V[x] gets it AND nn, VF is not written as a flag (log 2). -/
def execRnd (x : Reg) (nn : Byte) (s : State) : Result := .next (setReg x (nextDraw s &&& nn) (afterDraw s))

end Sys2Proof.Machine
end

