-- ==== Sys2Proof/Machine/Skip.lean ====
section
/-! DEFINITION. The meanings of the six conditional skips (41_conditional_skip.md). -/

namespace Sys2Proof.Machine

/-- `SE Vx, byte` (R70). -/
def execSeByte (x : Reg) (nn : Byte) (s : State) : Result := .next (skipIf (readReg s x == nn) s)

/-- `SNE Vx, byte` (R71). -/
def execSneByte (x : Reg) (nn : Byte) (s : State) : Result := .next (skipIf (readReg s x != nn) s)

/-- `SE Vx, Vy` (R72). -/
def execSeReg (x y : Reg) (s : State) : Result := .next (skipIf (readReg s x == readReg s y) s)

/-- `SNE Vx, Vy` (R73). -/
def execSneReg (x y : Reg) (s : State) : Result := .next (skipIf (readReg s x != readReg s y) s)

/-- Skip when the key that V[x] names is in the state `down`; a value above 15 raises KeyIndexOutOfRange (R74, R75;
log 12). -/
def skipOnKey (x : Reg) (down : Bool) (s : State) : Result :=
  match keyOfByte (readReg s x) with
  | none => raised .keyIndexOutOfRange (byteWord (readReg s x)) s
  | some k => .next (skipIf (keyDown s k == down) s)

/-- `SKP Vx` (R74). -/
def execSkp (x : Reg) (s : State) : Result := skipOnKey x true s

/-- `SKNP Vx` (R75). -/
def execSknp (x : Reg) (s : State) : Result := skipOnKey x false s

end Sys2Proof.Machine
end

