-- ==== Sys2Proof/Machine/Timers.lean ====
section
/-! DEFINITION. The meanings of the three timer instructions (46_timers.md). They do not decrement and do not wait
(R103). -/

namespace Sys2Proof.Machine

/-- `LD Vx, DT` (R104). -/
def execLdVxDt (x : Reg) (s : State) : Result := .next (setReg x s.dt s)

/-- `LD DT, Vx` (R105). -/
def execLdDtVx (x : Reg) (s : State) : Result := .next (setDt (readReg s x) s)

/-- `LD ST, Vx` (R106): no output (log 15). -/
def execLdStVx (x : Reg) (s : State) : Result := .next (setSt (readReg s x) s)

end Sys2Proof.Machine
end

