-- ==== Sys2Proof/Machine/External.lean ====
section
/-! DEFINITION. The external steps (60_exceptions.md section 3) and the loader (70_reset_and_hazards.md section 2). They
act on a halted machine as on a running one (60_exceptions.md R126; log 14). -/

namespace Sys2Proof.Machine

/-- A timer one tick later: decremented, clamped at 0 (R114). -/
def tickDown (b : Byte) : Byte := if b = 0 then 0 else b - 1

/-- `TimerTick()`: both timers in one step (R114; log 14). -/
def timerTick (s : State) : State := setSt (tickDown s.st) (setDt (tickDown s.dt) s)

/-- `KeyEvent(k, pressed)` (R117). -/
def keyEvent (k : Key) (pressed : Bool) (s : State) : State := setKey k pressed s

/-- `FrameRead`: the 2048 pixels as they stand (R119); the state does not change. -/
def frameRead (s : State) : Frame := s.fb

/-- `LoadImage(b)`: byte i of the image goes to 0x200 + i (70_reset_and_hazards.md R136); `none` for an image that does
not fit, which its precondition rules out (log 16). -/
def loadImage (image : List Byte) (s : State) : Option State :=
  if imageWellFormed image then some (setMem (Memory.writeBytes s.mem Config.progBase image) s) else none

/-- The font load: bytes placed from `base` on, inside [0x000, 0x200) (R136; log 16). -/
def loadFont (base : Nat) (glyphs : List Byte) (s : State) : Option State :=
  if fontWellFormed base glyphs then some (setMem (Memory.writeBytes s.mem base glyphs) s) else none

/-- The machine at its first Cycle with the launch parameters `MEM0` and `KEYS0` (00_scope.md R5; 10_state.md R32). -/
def launch (mem0 : Memory) (keys0 : Vector Bool 16) : State :=
  { State.reset with mem := mem0, key := keys0 }

end Sys2Proof.Machine
end

