-- ==== Sys2Proof/Machine/Fetch.lean ====
section
/-! DEFINITION. What the machine does next: an external step, or a Cycle up to its execute phase (10_state.md R17,
60_exceptions.md R123). Step.lean runs the instruction this file finds. -/

namespace Sys2Proof.Machine

/-- What a step comes to before an instruction executes: either it is over, or a decoded instruction is to execute on
a state whose pc is already advanced. -/
inductive Action where
  | settled (s : State)
  | execute (i : Instr) (s : State)
  deriving DecidableEq, Repr

/-- The fetch: the big-endian word at pc (20_memory.md R36), or `none` when pc + 2 > 4096 (R17). -/
def fetchWord (s : State) : Option Word :=
  if inRange s.pc.toNat Config.instrBytes then
    some (wordOfBytes (readByte s s.pc.toNat) (readByte s (s.pc.toNat + 1)))
  else none

/-- A Cycle up to its execute phase, in the order of 60_exceptions.md R123: the halted test, the fetch range check,
the advance, decode. -/
def cyclePhases (s : State) : Action :=
  if s.halt ≠ 0 then .settled s
  else
    match fetchWord s with
    | none => .settled (raise .addressOutOfRange s.pc s.pc s)
    | some w =>
      match decodeWord w with
      | .ok i => .execute i (advance s)
      | .error _ => .settled (reportUnknown s.pc w (advance s))

/-- One step of the environment (00_scope.md R8). -/
def envAction (e : EnvStep) (s : State) : Action :=
  match e with
  | .cycle => cyclePhases s
  | .timerTick => .settled (timerTick s)
  | .keyEvent k pressed => .settled (keyEvent k pressed s)
  | .frameRead => .settled s
  | .initializeProcessor => .settled (initializeProcessor s)

/-- The step the environment takes next: the head of its schedule, and a Cycle when nothing is scheduled (log 1). -/
def nextAction (s : State) : Action :=
  match s.schedule with
  | [] => cyclePhases s
  | e :: rest => envAction e (setSchedule rest s)

/-- The address the next fetch can use: pc, or 0x200 where pc is beyond the last whole word. -/
def fetchAddr (s : State) : Word :=
  if inRange s.pc.toNat Config.instrBytes then s.pc else BitVec.ofNat 16 Config.progBase

/-- `s` with the table's instruction stored where the next fetch reads, and with the next step a Cycle of a running
machine: nothing scheduled before it and no fault latched (log 5). -/
def placeWord (nbits w : Nat) (s : State) : State :=
  setMem (Memory.writeBytes s.mem (fetchAddr s).toNat (bytesOfWord (tableWord nbits w))) <|
    setPc (fetchAddr s) <| setSchedule [] <| if s.halt = 0 then s else setLatches 0 0 0 s

end Sys2Proof.Machine
end

