-- ==== Sys2Proof/Machine/Step.lean ====
section
/-! DEFINITION. One step of the machine, and the placing of a table word where the next step fetches. -/

namespace Sys2Proof.Machine

/-- One step: an external step, or a Cycle (00_scope.md R8, 10_state.md R17). -/
def step (s : State) : Host.Outcome State Fault Refusal :=
  match nextAction s with
  | .settled t => .next t
  | .execute i t => exec i t

/-- `s` with the instruction whose bits are `w` stored where `step` fetches its next instruction. -/
def State.withFetchWord (s : State) (nbits w : Nat) : State := placeWord nbits w s

end Sys2Proof.Machine
end

