-- ==== Sys2Proof/Safety.lean ====
section
/-! DEFINITION. The terms claims are stated in: the pieces of state and what a step leaves alone, a step that is a Cycle, the
invariant of every state the machine comes to, and a finished program. -/

namespace Sys2Proof.Machine

/-- The pieces of the state, one per field (10_state.md R12 and the model's own fields). -/
inductive Part where
  | v | index | pc | stack | sp | dt | st | mem | fb | key | halt | haltPc | haltInfo | unk
  | reports | schedule | draws | drawCount
  deriving DecidableEq, Repr

/-- Two states agree on a piece. Memory agrees when every address reads the same. -/
def Agree (p : Part) (s t : State) : Prop :=
  match p with
  | .v => t.v = s.v
  | .index => t.index = s.index
  | .pc => t.pc = s.pc
  | .stack => t.stack = s.stack
  | .sp => t.sp = s.sp
  | .dt => t.dt = s.dt
  | .st => t.st = s.st
  | .mem => ∀ a, readByte t a = readByte s a
  | .fb => t.fb = s.fb
  | .key => t.key = s.key
  | .halt => t.halt = s.halt
  | .haltPc => t.haltPc = s.haltPc
  | .haltInfo => t.haltInfo = s.haltInfo
  | .unk => t.unk = s.unk
  | .reports => t.reports = s.reports
  | .schedule => t.schedule = s.schedule
  | .draws => t.draws = s.draws
  | .drawCount => t.drawCount = s.drawCount

/-- From `s` to `t` nothing changed but the named pieces: every other register, latch and list is the same, and every
byte of memory reads the same unless `mem` is named. -/
def OnlyChanges (written : List Part) (s t : State) : Prop := ∀ p, p ∉ written → Agree p s t

/-- The environment's next step in `s` is a Cycle, which acts on `c` (00_scope.md R8; log 1): with nothing scheduled on
`s` itself, and with a Cycle scheduled on `s` without that head of the schedule, whatever steps come after it. -/
def CycleStarts (s c : State) : Prop :=
  (s.schedule = [] ∧ c = s) ∨ ∃ rest, s.schedule = .cycle :: rest ∧ c = setSchedule rest s

/-- The word that stands at pc, whose two bytes both lie in memory (20_memory.md R36). -/
abbrev WordAtPc (s : State) (w : Word) : Prop :=
  s.pc.toNat ≤ 4094 ∧
    w.toNat = 256 * (readByte s s.pc.toNat).toNat + (readByte s (s.pc.toNat + 1)).toNat

/-- The state a fatal fault leaves: the three latches written, nothing else (60_exceptions.md R111). -/
def Halted (code : BitVec 3) (addr info : Word) (s t : State) : Prop :=
  t.halt = code ∧ t.haltPc = addr ∧ t.haltInfo = info ∧ OnlyChanges [.halt, .haltPc, .haltInfo] s t

/-- A legal value of HALT: running, or the code of a fatal fault (10_state.md R26). -/
abbrev LegalHalt (c : BitVec 3) : Prop := c = 0 ∨ c = 2 ∨ c = 3 ∨ c = 4 ∨ c = 5

/-- What holds of every state the machine comes to: memory in canonical form; stack slot 0 never written (10_state.md
R20); every slot the address after some CALL, at most 4096 (40_control_transfer.md R68); pc at most 0x10FE (10_state.md
R18); HALT legal (R26); the diagnostic latches 0 while the machine runs (R27, R32). -/
abbrev Inv (s : State) : Prop :=
  Memory.wf s.mem = true ∧
  s.stack[(0 : Fin 16)] = 0 ∧
  (∀ k : Fin 16, (s.stack[k]).toNat ≤ 4096) ∧
  s.pc.toNat ≤ 0x10FE ∧
  LegalHalt s.halt ∧
  (s.halt = 0 → s.haltPc = 0 ∧ s.haltInfo = 0)

/-- A finished program: a jump to its own address, on a machine that is not halted (70_reset_and_hazards.md R149;
log 15). -/
abbrev Finished (s : State) : Prop :=
  s.halt = 0 ∧ s.pc.toNat ≤ 4094 ∧
    256 * (readByte s s.pc.toNat).toNat + (readByte s (s.pc.toNat + 1)).toNat = 0x1000 + s.pc.toNat

/-- The instructions one after another, each as a Cycle executes it, on a state whose pc is advanced first (10_state.md
R17); `none` once a fault is latched. Which memory they were fetched from plays no part. -/
def runInstrs : List Instr → State → Option State
  | [], s => some s
  | i :: is, s =>
    match exec i (advance s) with
    | .next t => if t.halt = 0 then runInstrs is t else none
    | .fault _ => none
    | .refused _ => none

/-- The set bits of the sprite of `n` rows at I, drawn with its top left corner at (`a`, `b`), fall on pixel
(`px`, `py`) (45_display.md R99): column c of row r is bit 7 - c of the byte at I + r. -/
def SpriteCovers (s : State) (a b : Byte) (n : Nat) (px : Fin 64) (py : Fin 32) : Prop :=
  ∃ r c : Nat, r < n ∧ c < 8 ∧ (readByte s (dataAddr s + r)).getLsbD (7 - c) = true ∧
    px.val = (a.toNat + c) % 64 ∧ py.val = (b.toNat + r) % 32

end Sys2Proof.Machine
end

