-- ==== Sys2Proof/Certificates/Slice0/Obligations.lean ====
section
/-! DEFINITION. What is stated of the model, rule by rule of the spec; OBLIGATIONS.json gives each one's words. In every
statement about `exec` the state's pc already holds A + 2 (10_state.md R17). -/

open Sys2Proof Sys2Proof.Machine

/-! ## Encoding -/

/-- R57, R61: decoding the encoding of any instruction gives it back, from its word and from its bytes. -/
def Obligations.DecodeOfEncodeIsIdentity : Prop :=
  ∀ (i : Instr) (rest : List Byte),
    decodeWord (encode i) = .ok i ∧ decode (encodeBytes i ++ rest) = .ok (i, rest)

/-- R55, R57: the two-level decoder is the match/mask table. A word selects an instruction's row exactly when it decodes
to an instruction of that row. The values of the table are the spec's general knowledge (log 9). -/
def Obligations.DecoderIsTheMatchMaskTable : Prop :=
  ∀ (w : Word) (i : Instr),
    w &&& (rowMatchMask i).2 = (rowMatchMask i).1 ↔
      ∃ j, decodeWord w = .ok j ∧ rowMatchMask j = rowMatchMask i

/-- R59, on the strict selectors of D2 (log 10): the Unknown words are exactly those of the table of R59, each rejected
by the name of its group. -/
def Obligations.UnknownWordsByGroup : Prop :=
  ∀ w : Word,
    (decodeWord w = .error .group0 ↔ w.toNat / 4096 = 0x0 ∧ w.toNat ≠ 0x00E0 ∧ w.toNat ≠ 0x00EE) ∧
    (decodeWord w = .error .group8 ↔ w.toNat / 4096 = 0x8 ∧ w.toNat % 16 ∈ [0x8, 0x9, 0xA, 0xB, 0xC, 0xD, 0xF]) ∧
    (decodeWord w = .error .groupE ↔ w.toNat / 4096 = 0xE ∧ w.toNat % 256 ∉ [0x9E, 0xA1]) ∧
    (decodeWord w = .error .groupF ↔
      w.toNat / 4096 = 0xF ∧ w.toNat % 256 ∉ [0x07, 0x0A, 0x15, 0x18, 0x1E, 0x29, 0x33, 0x55, 0x65])

/-- R58: encoding what a word decodes to gives the word back in every bit but those that decode ignores. -/
def Obligations.EncodeOfDecodeKeepsUsedBits : Prop :=
  ∀ (w : Word) (i : Instr), decodeWord w = .ok i → encode i = w &&& usedBits i

/-- Words of every family written out from the encodings of R57, most of them the examples of files 40 to 47. The values
are the spec's general knowledge (log 9); that 0x5AB7 is SE VA,VB, its low nibble ignored, is D3, and that 0x81F6 is
SHR V1, its Y field ignored, is D13 (log 10). -/
def Obligations.SampleWordsOfEveryFamily : Prop :=
  decodeWord 0x1204 = .ok (.jp 0x204) ∧
  decodeWord 0x2300 = .ok (.call 0x300) ∧
  decodeWord 0x00EE = .ok .ret ∧
  decodeWord 0x5AB7 = .ok (.seReg 10 11) ∧
  decodeWord 0xE29E = .ok (.skp 2) ∧
  decodeWord 0x6A2B = .ok (.ldByte 10 0x2B) ∧
  decodeWord 0x81F6 = .ok (.shr 1) ∧
  decodeWord 0xF265 = .ok (.ldVxMem 2) ∧
  decodeWord 0xC30F = .ok (.rnd 3 0x0F) ∧
  decodeWord 0xD012 = .ok (.drw 0 1 2) ∧
  decodeWord 0xF407 = .ok (.ldVxDt 4) ∧
  decodeWord 0xF30A = .ok (.ldVxK 3)

/-! ## The step -/

/-- R17: on a running machine whose next step is a Cycle, scheduled or not, the two bytes at pc are fetched, pc is
advanced by 2, and the step is `exec` of the instruction they decode to. -/
def Obligations.StepRunsTheDecodedInstruction : Prop :=
  ∀ (s : State) (i : Instr) (rest : List EnvStep),
    s.halt = 0 → s.pc.toNat ≤ 4094 →
    decode [readByte s s.pc.toNat, readByte s (s.pc.toNat + 1)] = .ok (i, []) →
    (s.schedule = [] → step s = exec i (advance s)) ∧
    (s.schedule = .cycle :: rest → step s = exec i (advance (setSchedule rest s))) ∧
    (advance s).pc = s.pc + 2 ∧ OnlyChanges [.pc] s (advance s)

/-- R36: the byte at the lower address is bits 15 to 8 of the fetched word, so it holds the primary group and the X
field, and the byte after it is bits 7 to 0. -/
def Obligations.FetchIsBigEndian : Prop :=
  ∀ s : State, s.pc.toNat ≤ 4094 →
    ∃ w, fetchWord s = some w ∧
      w.toNat = 256 * (readByte s s.pc.toNat).toNat + (readByte s (s.pc.toNat + 1)).toNat ∧
      (opField w).toNat = (readByte s s.pc.toNat).toNat / 16 ∧
      (xField w).val = (readByte s s.pc.toNat).toNat % 16 ∧
      (yField w).val = (readByte s (s.pc.toNat + 1)).toNat / 16 ∧
      (nField w).toNat = (readByte s (s.pc.toNat + 1)).toNat % 16 ∧
      nnField w = readByte s (s.pc.toNat + 1) ∧
      (nnnField w).toNat =
        256 * ((readByte s s.pc.toNat).toNat % 16) + (readByte s (s.pc.toNat + 1)).toNat

/-- R133 as the model reads it (log 6): every step of every state answers a next state. -/
def Obligations.EveryStepAnswersNext : Prop :=
  ∀ s : State, ∃ t, step s = .next t

/-- D5 (R26; log 12): a Cycle of a halted machine changes nothing at all; a scheduled one leaves the schedule (log 1). -/
def Obligations.HaltedCycleChangesNothing : Prop :=
  ∀ s c : State, CycleStarts s c → s.halt ≠ 0 → step s = .next c

/-- D4, D26 with D5 and D6 (R17, R40; log 11, log 12): a fetch beyond the last whole word latches AddressOutOfRange with
pc as address and information, and pc is not advanced; a scheduled Cycle leaves the schedule (log 1). -/
def Obligations.FetchBeyondMemoryHalts : Prop :=
  ∀ s c : State, CycleStarts s c → s.halt = 0 → 4094 < s.pc.toNat →
    ∃ t, step s = .next t ∧ Halted 4 s.pc s.pc c t

/-- R112 with the flag and the report of D7 (log 7): an Unknown word is a reported no-op beyond the advance; a scheduled
Cycle leaves the schedule (log 1). -/
def Obligations.UnknownWordIsAReportedNoOp : Prop :=
  ∀ (s c : State) (w : Word) (g : Unknown), CycleStarts s c → s.halt = 0 → WordAtPc s w → decodeWord w = .error g →
    ∃ t, step s = .next t ∧ t.unk = true ∧ t.reports = ⟨s.pc, w⟩ :: s.reports ∧ t.pc = s.pc + 2 ∧
      OnlyChanges [.unk, .reports, .pc] c t

/-- Every step, of the Processor or of the environment, keeps the invariant `Inv` of Safety.lean (R18, R20, R26, R27,
R68; the canonical form of memory is the model's own, log 3). -/
def Obligations.EveryStepKeepsInv : Prop :=
  ∀ s t : State, Inv s → step s = .next t → Inv t

/-- The invariant holds after reset, and at the first Cycle for every MEM0 in canonical form and every KEYS0. The model's
choices in it: the canonical form of memory and the empty memory of State.reset (log 3), what State.reset and `launch`
stand for (log 5), and the latches at 0 after reset, which is D5 (log 12). -/
def Obligations.InvHoldsAtLaunch : Prop :=
  Inv State.reset ∧ ∀ (mem0 : Memory) (keys0 : Vector Bool 16), Memory.wf mem0 = true → Inv (launch mem0 keys0)

/-- R32: the Processor after reset, and FB cleared, whatever the launch parameters. -/
def Obligations.ResetValues : Prop :=
  ∀ (mem0 : Memory) (keys0 : Vector Bool 16),
    let s := launch mem0 keys0
    (∀ r, readReg s r = 0) ∧ s.index = 0 ∧ s.pc = 0x200 ∧ s.sp = 0 ∧ (∀ k : Fin 16, s.stack[k] = 0) ∧ s.dt = 0 ∧
    s.st = 0 ∧ s.halt = 0 ∧ s.haltPc = 0 ∧ s.haltInfo = 0 ∧ s.unk = false ∧
    (∀ x y, Frame.pixel s.fb x y = false) ∧ (∀ a, readByte s a = Memory.read mem0 a) ∧
    (∀ k, keyDown s k = keys0[k])

/-! ## The external steps -/

/-- R114 with D21 (log 14): one TimerTick decrements both timers, each clamped at 0, on a halted machine too. -/
def Obligations.TimerTickCountsBothTimersDown : Prop :=
  ∀ (s : State) (rest : List EnvStep), s.schedule = .timerTick :: rest →
    ∃ t, step s = .next t ∧ t.dt.toNat = s.dt.toNat - 1 ∧ t.st.toNat = s.st.toNat - 1 ∧ t.schedule = rest ∧
      OnlyChanges [.dt, .st, .schedule] s t

/-- R117 (and D27 for the halted machine, log 14): a KeyEvent sets the state of its key and nothing else. -/
def Obligations.KeyEventSetsOneKey : Prop :=
  ∀ (s : State) (k : Key) (pressed : Bool) (rest : List EnvStep), s.schedule = .keyEvent k pressed :: rest →
    ∃ t, step s = .next t ∧ keyDown t k = pressed ∧ (∀ j, j ≠ k → keyDown t j = keyDown s j) ∧
      t.schedule = rest ∧ OnlyChanges [.key, .schedule] s t

/-- R119: FrameRead gives every pixel as it stands and changes nothing of the machine. -/
def Obligations.FrameReadChangesNothing : Prop :=
  ∀ (s : State) (rest : List EnvStep), s.schedule = .frameRead :: rest →
    (∀ x y, Frame.pixel (frameRead s) x y = Frame.pixel s.fb x y) ∧
    ∃ t, step s = .next t ∧ t.schedule = rest ∧ OnlyChanges [.schedule] s t

/-- R135 with D5 and D19 (log 12, log 14): Initialize, at any time, leaves the reset values in the Processor and in the
latches, and MEM, FB and KEY as they are. -/
def Obligations.InitializeResetsTheProcessor : Prop :=
  ∀ (s : State) (rest : List EnvStep), s.schedule = .initializeProcessor :: rest →
    ∃ t, step s = .next t ∧ (∀ r, readReg t r = 0) ∧ t.index = 0 ∧ t.pc = 0x200 ∧ t.sp = 0 ∧
      (∀ k : Fin 16, t.stack[k] = 0) ∧ t.dt = 0 ∧ t.st = 0 ∧ t.halt = 0 ∧ t.haltPc = 0 ∧ t.haltInfo = 0 ∧
      t.unk = false ∧ t.schedule = rest ∧
      OnlyChanges [.v, .index, .pc, .sp, .stack, .dt, .st, .halt, .haltPc, .haltInfo, .unk, .schedule] s t

/-- R136 (the precondition is D23, log 16): LoadImage puts byte i of the image at 0x200 + i, the font load its bytes
where it is told inside the reserved region, and neither changes any other byte. -/
def Obligations.LoaderPlacesBytesVerbatim : Prop :=
  ∀ (bytes : List Byte) (base : Nat) (s : State), Memory.wf s.mem = true →
    (bytes.length ≤ 3584 →
      ∃ t, loadImage bytes s = some t ∧ Memory.wf t.mem = true ∧
        (∀ k (h : k < bytes.length), readByte t (0x200 + k) = bytes[k]) ∧
        (∀ a, a < 0x200 ∨ 0x200 + bytes.length ≤ a → readByte t a = readByte s a) ∧ OnlyChanges [.mem] s t) ∧
    (base + bytes.length ≤ 0x200 →
      ∃ t, loadFont base bytes s = some t ∧ Memory.wf t.mem = true ∧
        (∀ k (h : k < bytes.length), readByte t (base + k) = bytes[k]) ∧
        (∀ a, a < base ∨ base + bytes.length ≤ a → readByte t a = readByte s a) ∧ OnlyChanges [.mem] s t)

/-! ## Control transfer -/

/-- R65. -/
def Obligations.JpSetsPc : Prop :=
  ∀ (nnn : Addr) (s : State),
    decodeWord (BitVec.ofNat 16 (0x1000 + nnn.toNat)) = .ok (.jp nnn) ∧
    ∃ t, exec (.jp nnn) s = .next t ∧ t.pc.toNat = nnn.toNat ∧ OnlyChanges [.pc] s t

/-- R66 with D17 (log 11): the target is not reduced to 12 bits. -/
def Obligations.JpV0AddsV0 : Prop :=
  ∀ (nnn : Addr) (s : State),
    decodeWord (BitVec.ofNat 16 (0xB000 + nnn.toNat)) = .ok (.jpV0 nnn) ∧
    ∃ t, exec (.jpV0 nnn) s = .next t ∧ t.pc.toNat = nnn.toNat + (readReg s 0).toNat ∧ t.pc.toNat ≤ 0x10FE ∧
      OnlyChanges [.pc] s t

/-- R67, R19: with a slot free CALL increments sp, stores pc, which is A + 2, in the slot sp then names, and jumps. -/
def Obligations.CallPushesAndJumps : Prop :=
  ∀ (nnn : Addr) (s : State), s.sp.val < 15 →
    decodeWord (BitVec.ofNat 16 (0x2000 + nnn.toNat)) = .ok (.call nnn) ∧
    ∃ t, exec (.call nnn) s = .next t ∧ t.sp.val = s.sp.val + 1 ∧ t.stack[t.sp] = s.pc ∧
      (∀ k : Fin 16, k ≠ t.sp → t.stack[k] = s.stack[k]) ∧ t.pc.toNat = nnn.toNat ∧
      OnlyChanges [.pc, .sp, .stack] s t

/-- R67 with D5 and D6 (log 8, log 12): the 16th nested CALL latches StackOverflow with the target as information. -/
def Obligations.CallAtDepth15Overflows : Prop :=
  ∀ (nnn : Addr) (s : State), s.sp.val = 15 →
    ∃ t, exec (.call nnn) s = .next t ∧ Halted 2 (s.pc - 2) (nnn.setWidth 16) s t

/-- R68, R20: RET loads pc from the slot sp names, decrements sp, and clears no slot. -/
def Obligations.RetPops : Prop :=
  decodeWord 0x00EE = .ok .ret ∧
  ∀ s : State, s.sp.val ≠ 0 →
    ∃ t, exec .ret s = .next t ∧ t.pc = s.stack[s.sp] ∧ t.sp.val + 1 = s.sp.val ∧ OnlyChanges [.pc, .sp] s t

/-- R68 with D5 and D6 (log 8, log 12): RET on an empty stack latches StackUnderflow. -/
def Obligations.RetOnEmptyStackUnderflows : Prop :=
  ∀ s : State, s.sp.val = 0 → ∃ t, exec .ret s = .next t ∧ Halted 3 (s.pc - 2) 0 s t

/-- The source's property S5 (95_test_vectors.md): as many nested calls as the stack holds, then as many returns, leave
pc after the first CALL, sp where it was, and nothing changed but stack slots. -/
def Obligations.NestedCallsAndReturnsRestore : Prop :=
  ∀ (targets : List Addr) (s : State), targets ≠ [] → s.halt = 0 → s.sp.val + targets.length ≤ 15 →
    ∃ t, runInstrs (targets.map Instr.call ++ List.replicate targets.length Instr.ret) s = some t ∧
      t.pc = s.pc + 2 ∧ OnlyChanges [.pc, .stack] s t

/-! ## Conditional skips -/

/-- R70, R71. -/
def Obligations.ByteSkips : Prop :=
  ∀ (x : Reg) (nn : Byte) (s : State),
    decodeWord (BitVec.ofNat 16 (0x3000 + 0x100 * x.val + nn.toNat)) = .ok (.seByte x nn) ∧
    decodeWord (BitVec.ofNat 16 (0x4000 + 0x100 * x.val + nn.toNat)) = .ok (.sneByte x nn) ∧
    (∃ t, exec (.seByte x nn) s = .next t ∧ t.pc = (if readReg s x = nn then s.pc + 2 else s.pc) ∧
      OnlyChanges [.pc] s t) ∧
    (∃ t, exec (.sneByte x nn) s = .next t ∧ t.pc = (if readReg s x = nn then s.pc else s.pc + 2) ∧
      OnlyChanges [.pc] s t)

/-- R72, R73, with the low nibble ignored as D3 has it (log 10). -/
def Obligations.RegisterSkips : Prop :=
  ∀ (x y : Reg) (low : Nibble) (s : State),
    decodeWord (BitVec.ofNat 16 (0x5000 + 0x100 * x.val + 0x10 * y.val + low.toNat)) = .ok (.seReg x y) ∧
    decodeWord (BitVec.ofNat 16 (0x9000 + 0x100 * x.val + 0x10 * y.val + low.toNat)) = .ok (.sneReg x y) ∧
    (∃ t, exec (.seReg x y) s = .next t ∧ t.pc = (if readReg s x = readReg s y then s.pc + 2 else s.pc) ∧
      OnlyChanges [.pc] s t) ∧
    (∃ t, exec (.sneReg x y) s = .next t ∧ t.pc = (if readReg s x = readReg s y then s.pc else s.pc + 2) ∧
      OnlyChanges [.pc] s t)

/-- R74, R75 for a value 0 to 15: the key named is the value of VX, tested as it is held at this moment. -/
def Obligations.KeySkips : Prop :=
  ∀ (x : Reg) (k : Key) (s : State), (readReg s x).toNat = k.val →
    decodeWord (BitVec.ofNat 16 (0xE09E + 0x100 * x.val)) = .ok (.skp x) ∧
    decodeWord (BitVec.ofNat 16 (0xE0A1 + 0x100 * x.val)) = .ok (.sknp x) ∧
    (∃ t, exec (.skp x) s = .next t ∧ t.pc = (if keyDown s k = true then s.pc + 2 else s.pc) ∧
      OnlyChanges [.pc] s t) ∧
    (∃ t, exec (.sknp x) s = .next t ∧ t.pc = (if keyDown s k = true then s.pc else s.pc + 2) ∧
      OnlyChanges [.pc] s t)

/-- D8 (R74, R75; log 12): a value above 15 latches KeyIndexOutOfRange, the spec's own fault. -/
def Obligations.KeyIndexAbove15Halts : Prop :=
  ∀ (x : Reg) (s : State), 15 < (readReg s x).toNat →
    (∃ t, exec (.skp x) s = .next t ∧ Halted 5 (s.pc - 2) ((readReg s x).setWidth 16) s t) ∧
    (∃ t, exec (.sknp x) s = .next t ∧ Halted 5 (s.pc - 2) ((readReg s x).setWidth 16) s t)

/-! ## Register load and arithmetic -/

/-- R78. -/
def Obligations.LdByteLoadsTheImmediate : Prop :=
  ∀ (x : Reg) (nn : Byte) (s : State),
    decodeWord (BitVec.ofNat 16 (0x6000 + 0x100 * x.val + nn.toNat)) = .ok (.ldByte x nn) ∧
    ∃ t, exec (.ldByte x nn) s = .next t ∧ readReg t x = nn ∧ (∀ r, r ≠ x → readReg t r = readReg s r) ∧
      OnlyChanges [.v] s t

/-- R79: modulo 256 and no flag. -/
def Obligations.AddByteWrapsWithoutFlag : Prop :=
  ∀ (x : Reg) (nn : Byte) (s : State),
    decodeWord (BitVec.ofNat 16 (0x7000 + 0x100 * x.val + nn.toNat)) = .ok (.addByte x nn) ∧
    ∃ t, exec (.addByte x nn) s = .next t ∧ (readReg t x).toNat = ((readReg s x).toNat + nn.toNat) % 256 ∧
      (∀ r, r ≠ x → readReg t r = readReg s r) ∧ OnlyChanges [.v] s t

/-- R80. -/
def Obligations.LdRegCopies : Prop :=
  ∀ (x y : Reg) (s : State),
    decodeWord (BitVec.ofNat 16 (0x8000 + 0x100 * x.val + 0x10 * y.val)) = .ok (.ldReg x y) ∧
    ∃ t, exec (.ldReg x y) s = .next t ∧ readReg t x = readReg s y ∧ (∀ r, r ≠ x → readReg t r = readReg s r) ∧
      OnlyChanges [.v] s t

/-- R81 to R83, with VF left alone unless it is VX, as D13 has it (log 13): each bit of the result is the bit operation
of the operands' bits. -/
def Obligations.LogicOpsActBitwiseWithoutFlag : Prop :=
  ∀ (x y : Reg) (s : State),
    decodeWord (BitVec.ofNat 16 (0x8001 + 0x100 * x.val + 0x10 * y.val)) = .ok (.orReg x y) ∧
    decodeWord (BitVec.ofNat 16 (0x8002 + 0x100 * x.val + 0x10 * y.val)) = .ok (.andReg x y) ∧
    decodeWord (BitVec.ofNat 16 (0x8003 + 0x100 * x.val + 0x10 * y.val)) = .ok (.xorReg x y) ∧
    (∃ t, exec (.orReg x y) s = .next t ∧
      (∀ j, (readReg t x).getLsbD j = ((readReg s x).getLsbD j || (readReg s y).getLsbD j)) ∧
      (∀ r, r ≠ x → readReg t r = readReg s r) ∧ OnlyChanges [.v] s t) ∧
    (∃ t, exec (.andReg x y) s = .next t ∧
      (∀ j, (readReg t x).getLsbD j = ((readReg s x).getLsbD j && (readReg s y).getLsbD j)) ∧
      (∀ r, r ≠ x → readReg t r = readReg s r) ∧ OnlyChanges [.v] s t) ∧
    (∃ t, exec (.xorReg x y) s = .next t ∧
      (∀ j, (readReg t x).getLsbD j = ((readReg s x).getLsbD j != (readReg s y).getLsbD j)) ∧
      (∀ r, r ≠ x → readReg t r = readReg s r) ∧ OnlyChanges [.v] s t)

/-- R84 (and R14): the carry goes to VF last, so it is what VF holds when x = 15. -/
def Obligations.AddRegSetsCarry : Prop :=
  ∀ (x y : Reg) (s : State),
    decodeWord (BitVec.ofNat 16 (0x8004 + 0x100 * x.val + 0x10 * y.val)) = .ok (.addReg x y) ∧
    ∃ t, exec (.addReg x y) s = .next t ∧
      readReg t 15 = (if (readReg s x).toNat + (readReg s y).toNat > 255 then 1 else 0) ∧
      (x ≠ 15 → (readReg t x).toNat = ((readReg s x).toNat + (readReg s y).toNat) % 256) ∧
      (∀ r, r ≠ x → r ≠ 15 → readReg t r = readReg s r) ∧ OnlyChanges [.v] s t

/-- R85, R87, with the strict comparison of C1 and D9 (log 13): equal operands give 0 and VF = 0. -/
def Obligations.SubtractionsSetStrictlyGreater : Prop :=
  ∀ (x y : Reg) (s : State),
    decodeWord (BitVec.ofNat 16 (0x8005 + 0x100 * x.val + 0x10 * y.val)) = .ok (.subReg x y) ∧
    decodeWord (BitVec.ofNat 16 (0x8007 + 0x100 * x.val + 0x10 * y.val)) = .ok (.subnReg x y) ∧
    (∃ t, exec (.subReg x y) s = .next t ∧
      readReg t 15 = (if (readReg s x).toNat > (readReg s y).toNat then 1 else 0) ∧
      (x ≠ 15 → ((readReg t x).toNat : Int) = ((readReg s x).toNat - (readReg s y).toNat : Int) % 256) ∧
      (∀ r, r ≠ x → r ≠ 15 → readReg t r = readReg s r) ∧ OnlyChanges [.v] s t) ∧
    (∃ t, exec (.subnReg x y) s = .next t ∧
      readReg t 15 = (if (readReg s y).toNat > (readReg s x).toNat then 1 else 0) ∧
      (x ≠ 15 → ((readReg t x).toNat : Int) = ((readReg s y).toNat - (readReg s x).toNat : Int) % 256) ∧
      (∀ r, r ≠ x → r ≠ 15 → readReg t r = readReg s r) ∧ OnlyChanges [.v] s t)

/-- R86, R88, with the Y field of the word ignored and VY untouched, as D13 has it (log 10, log 13). -/
def Obligations.ShiftsSetTheBitShiftedOut : Prop :=
  ∀ (x y : Reg) (s : State),
    decodeWord (BitVec.ofNat 16 (0x8006 + 0x100 * x.val + 0x10 * y.val)) = .ok (.shr x) ∧
    decodeWord (BitVec.ofNat 16 (0x800E + 0x100 * x.val + 0x10 * y.val)) = .ok (.shl x) ∧
    (∃ t, exec (.shr x) s = .next t ∧ (readReg t 15).toNat = (readReg s x).toNat % 2 ∧
      (x ≠ 15 → (readReg t x).toNat = (readReg s x).toNat / 2) ∧
      (∀ r, r ≠ x → r ≠ 15 → readReg t r = readReg s r) ∧ OnlyChanges [.v] s t) ∧
    (∃ t, exec (.shl x) s = .next t ∧ (readReg t 15).toNat = (readReg s x).toNat / 128 ∧
      (x ≠ 15 → (readReg t x).toNat = (2 * (readReg s x).toNat) % 256) ∧
      (∀ r, r ≠ x → r ≠ 15 → readReg t r = readReg s r) ∧ OnlyChanges [.v] s t)

/-! ## Memory and index -/

/-- R90. -/
def Obligations.LdISetsIndex : Prop :=
  ∀ (nnn : Addr) (s : State),
    decodeWord (BitVec.ofNat 16 (0xA000 + nnn.toNat)) = .ok (.ldI nnn) ∧
    ∃ t, exec (.ldI nnn) s = .next t ∧ t.index.toNat = nnn.toNat ∧ OnlyChanges [.index] s t

/-- R91 with the wrap of D11 (log 13): no flag, no range test. -/
def Obligations.AddIWrapsAt16Bits : Prop :=
  ∀ (x : Reg) (s : State),
    decodeWord (BitVec.ofNat 16 (0xF01E + 0x100 * x.val)) = .ok (.addIVx x) ∧
    ∃ t, exec (.addIVx x) s = .next t ∧ t.index.toNat = (s.index.toNat + (readReg s x).toNat) % 65536 ∧
      OnlyChanges [.index] s t

/-- R92 with D10 (log 13): five times the whole byte. -/
def Obligations.LdFIsFiveTimesTheByte : Prop :=
  ∀ (x : Reg) (s : State),
    decodeWord (BitVec.ofNat 16 (0xF029 + 0x100 * x.val)) = .ok (.ldFVx x) ∧
    ∃ t, exec (.ldFVx x) s = .next t ∧ t.index.toNat = 5 * (readReg s x).toNat ∧ OnlyChanges [.index] s t

/-- R93 where the three bytes fit (I unchanged is D12, log 13): hundreds, tens and ones at I, I + 1, I + 2, and no other
byte changes. -/
def Obligations.LdBStoresDecimalDigits : Prop :=
  ∀ (x : Reg) (s : State), Memory.wf s.mem = true → dataAddr s + 3 ≤ 4096 →
    decodeWord (BitVec.ofNat 16 (0xF033 + 0x100 * x.val)) = .ok (.ldBVx x) ∧
    ∃ t, exec (.ldBVx x) s = .next t ∧
      (readByte t (dataAddr s)).toNat = (readReg s x).toNat / 100 ∧
      (readByte t (dataAddr s + 1)).toNat = (readReg s x).toNat / 10 % 10 ∧
      (readByte t (dataAddr s + 2)).toNat = (readReg s x).toNat % 10 ∧
      (∀ a, a < dataAddr s ∨ dataAddr s + 3 ≤ a → readByte t a = readByte s a) ∧
      OnlyChanges [.mem] s t

/-- R94 where the run fits (I unchanged is D12, log 13): V[r] at I + r for r = 0 to x, and no other byte changes. -/
def Obligations.BlockStoreWritesV0ToVx : Prop :=
  ∀ (x : Reg) (s : State), Memory.wf s.mem = true → dataAddr s + x.val ≤ 4095 →
    decodeWord (BitVec.ofNat 16 (0xF055 + 0x100 * x.val)) = .ok (.ldMemVx x) ∧
    ∃ t, exec (.ldMemVx x) s = .next t ∧
      (∀ r : Reg, r ≤ x → readByte t (dataAddr s + r.val) = readReg s r) ∧
      (∀ a, a < dataAddr s ∨ dataAddr s + x.val < a → readByte t a = readByte s a) ∧
      OnlyChanges [.mem] s t

/-- R95 where the run fits (I unchanged is D12, log 13): V[r] from I + r for r = 0 to x; VF is loaded as data. -/
def Obligations.BlockLoadReadsV0ToVx : Prop :=
  ∀ (x : Reg) (s : State), dataAddr s + x.val ≤ 4095 →
    decodeWord (BitVec.ofNat 16 (0xF065 + 0x100 * x.val)) = .ok (.ldVxMem x) ∧
    ∃ t, exec (.ldVxMem x) s = .next t ∧
      (∀ r : Reg, readReg t r = if r ≤ x then readByte s (dataAddr s + r.val) else readReg s r) ∧
      OnlyChanges [.v] s t

/-- D4 with D5 and D6 (R40, R110; log 8, log 11, log 12): a transfer whose bytes are not all in 0 to 4095 latches
AddressOutOfRange with I as information and moves no byte, sets no pixel and no register. -/
def Obligations.TransfersBeyondMemoryHalt : Prop :=
  ∀ (x y : Reg) (n : Nibble) (s : State),
    (4096 < dataAddr s + 3 → ∃ t, exec (.ldBVx x) s = .next t ∧ Halted 4 (s.pc - 2) s.index s t) ∧
    (4095 < dataAddr s + x.val → ∃ t, exec (.ldMemVx x) s = .next t ∧ Halted 4 (s.pc - 2) s.index s t) ∧
    (4095 < dataAddr s + x.val → ∃ t, exec (.ldVxMem x) s = .next t ∧ Halted 4 (s.pc - 2) s.index s t) ∧
    (4096 < dataAddr s + n.toNat → ∃ t, exec (.drw x y n) s = .next t ∧ Halted 4 (s.pc - 2) s.index s t)

/-- R47: a word that LD [I] stored is what a fetch from I sees next, V0 as its high byte and V1 as its low one. -/
def Obligations.StoredWordIsFetchedNext : Prop :=
  ∀ (x : Reg) (s : State), Memory.wf s.mem = true → 1 ≤ x.val → dataAddr s + x.val ≤ 4095 →
    ∃ t, exec (.ldMemVx x) s = .next t ∧
      ∃ w, fetchWord (setPc s.index t) = some w ∧
        w.toNat = 256 * (readReg s 0).toNat + (readReg s 1).toNat

/-! ## Random -/

/-- R97, where the byte drawn is any byte (D20; the list of bytes and the free value `Config.drawByte` are the model's
form of it, log 2): the next byte of the environment's list, and the free value where the list is empty. -/
def Obligations.RndMasksOneDraw : Prop :=
  ∀ (x : Reg) (nn : Byte) (s : State),
    decodeWord (BitVec.ofNat 16 (0xC000 + 0x100 * x.val + nn.toNat)) = .ok (.rnd x nn) ∧
    ∃ t r, exec (.rnd x nn) s = .next t ∧
      (∀ b l, s.draws = b :: l → r = b ∧ t.draws = l) ∧
      (s.draws = [] → r = Config.drawByte s.drawCount ∧ t.draws = []) ∧
      t.drawCount = s.drawCount + 1 ∧ readReg t x = r &&& nn ∧ (∀ q, q ≠ x → readReg t q = readReg s q) ∧
      OnlyChanges [.v, .draws, .drawCount] s t

/-! ## Display -/

/-- R101. -/
def Obligations.ClsClearsEveryPixel : Prop :=
  decodeWord 0x00E0 = .ok .cls ∧
  ∀ s : State, ∃ t, exec .cls s = .next t ∧ (∀ x y, Frame.pixel t.fb x y = false) ∧ OnlyChanges [.fb] s t

/-- R99, R100 where the rows fit (n = 0 is D14, coordinates above the screen D15; log 13): a pixel turns over exactly when
a set bit of the sprite falls on it, and VF is 1 exactly when one of those pixels was lit. -/
def Obligations.DrwTurnsOverTheSpritesPixels : Prop :=
  ∀ (x y : Reg) (n : Nibble) (s : State), dataAddr s + n.toNat ≤ 4096 →
    decodeWord (BitVec.ofNat 16 (0xD000 + 0x100 * x.val + 0x10 * y.val + n.toNat)) = .ok (.drw x y n) ∧
    ∃ t, exec (.drw x y n) s = .next t ∧
      (∀ px py, Frame.pixel t.fb px py = true ↔
        (Frame.pixel s.fb px py = true ↔ ¬ SpriteCovers s (readReg s x) (readReg s y) n.toNat px py)) ∧
      ((∃ px py, SpriteCovers s (readReg s x) (readReg s y) n.toNat px py ∧ Frame.pixel s.fb px py = true) →
        readReg t 15 = 1) ∧
      ((¬ ∃ px py, SpriteCovers s (readReg s x) (readReg s y) n.toNat px py ∧ Frame.pixel s.fb px py = true) →
        readReg t 15 = 0) ∧
      (∀ r, r ≠ 15 → readReg t r = readReg s r) ∧ OnlyChanges [.v, .fb] s t

/-- The source's property S6 (R99 property e): drawing the same rows at the same place twice restores FB; on a clear FB
the first draw reports no collision and the second one exactly when the sprite has a set bit. Coordinates are not taken
from VF, which the first draw overwrites. -/
def Obligations.DrawingTwiceRestoresTheFrame : Prop :=
  ∀ (x y : Reg) (n : Nibble) (s : State), x ≠ 15 → y ≠ 15 → dataAddr s + n.toNat ≤ 4096 →
    ∃ t u, exec (.drw x y n) s = .next t ∧ exec (.drw x y n) t = .next u ∧ u.fb = s.fb ∧
      ((∀ px py, Frame.pixel s.fb px py = false) → readReg t 15 = 0 ∧
        (readReg u 15 = 1 ↔ ∃ r < n.toNat, readByte s (dataAddr s + r) ≠ 0))

/-! ## Timers and key wait -/

/-- R104, R105, R106. -/
def Obligations.TimerMoves : Prop :=
  ∀ (x : Reg) (s : State),
    decodeWord (BitVec.ofNat 16 (0xF007 + 0x100 * x.val)) = .ok (.ldVxDt x) ∧
    decodeWord (BitVec.ofNat 16 (0xF015 + 0x100 * x.val)) = .ok (.ldDtVx x) ∧
    decodeWord (BitVec.ofNat 16 (0xF018 + 0x100 * x.val)) = .ok (.ldStVx x) ∧
    (∃ t, exec (.ldVxDt x) s = .next t ∧ readReg t x = s.dt ∧ (∀ r, r ≠ x → readReg t r = readReg s r) ∧
      OnlyChanges [.v] s t) ∧
    (∃ t, exec (.ldDtVx x) s = .next t ∧ t.dt = readReg s x ∧ OnlyChanges [.dt] s t) ∧
    (∃ t, exec (.ldStVx x) s = .next t ∧ t.st = readReg s x ∧ OnlyChanges [.st] s t)

/-- R107. -/
def Obligations.KeyWaitRetriesOrStoresTheLeastKey : Prop :=
  ∀ (x : Reg) (s : State),
    decodeWord (BitVec.ofNat 16 (0xF00A + 0x100 * x.val)) = .ok (.ldVxK x) ∧
    ((∀ k, keyDown s k = false) →
      ∃ t, exec (.ldVxK x) s = .next t ∧ t.pc = s.pc - 2 ∧ OnlyChanges [.pc] s t) ∧
    (∀ k, keyDown s k = true → (∀ j, j < k → keyDown s j = false) →
      ∃ t, exec (.ldVxK x) s = .next t ∧ (readReg t x).toNat = k.val ∧
        (∀ r, r ≠ x → readReg t r = readReg s r) ∧ OnlyChanges [.v] s t)

/-- R108 (a): a stalled Cycle changes no state at all; a scheduled one leaves the schedule (log 1). -/
def Obligations.StalledCycleIsAFixedPoint : Prop :=
  ∀ (s c : State) (x : Reg), CycleStarts s c → s.halt = 0 →
    WordAtPc s (BitVec.ofNat 16 (0xF00A + 0x100 * x.val)) → (∀ k, keyDown s k = false) → step s = .next c

/-! ## Rules of the whole machine -/

/-- R12's column "written by" and R110, for instructions: FB, memory, the stack, sp, I, DT, ST, the draws and the three
latches are changed by no instruction but those named, KEY and UNK by none. Decisions of the spec in it: the latches and
the faults that write them are D5, D6 and D8 (log 12), UNK is D7 (log 7), that I stays in a transfer is D12 (log 13). The
model's own fields in it: draws and drawCount (log 2), reports (log 7), schedule (log 1). -/
def Obligations.EachPieceHasOnlyItsWriters : Prop :=
  ∀ (i : Instr) (s t : State), exec i s = .next t →
    (t.fb ≠ s.fb → i = .cls ∨ ∃ x y n, i = .drw x y n) ∧
    ((∃ a, readByte t a ≠ readByte s a) → ∃ x, i = .ldBVx x ∨ i = .ldMemVx x) ∧
    (t.stack ≠ s.stack → ∃ nnn, i = .call nnn) ∧
    (t.sp ≠ s.sp → i = .ret ∨ ∃ nnn, i = .call nnn) ∧
    (t.index ≠ s.index → (∃ nnn, i = .ldI nnn) ∨ ∃ x, i = .addIVx x ∨ i = .ldFVx x) ∧
    (t.dt ≠ s.dt → ∃ x, i = .ldDtVx x) ∧
    (t.st ≠ s.st → ∃ x, i = .ldStVx x) ∧
    (t.draws ≠ s.draws ∨ t.drawCount ≠ s.drawCount → ∃ x nn, i = .rnd x nn) ∧
    (t.halt ≠ s.halt ∨ t.haltPc ≠ s.haltPc ∨ t.haltInfo ≠ s.haltInfo →
      i = .ret ∨ (∃ nnn, i = .call nnn) ∨ (∃ x y n, i = .drw x y n) ∨
        ∃ x, i = .ldBVx x ∨ i = .ldMemVx x ∨ i = .ldVxMem x ∨ i = .skp x ∨ i = .sknp x) ∧
    t.key = s.key ∧ t.unk = s.unk ∧ t.reports = s.reports ∧ t.schedule = s.schedule

/-- R18: an instruction that is no jump, call, return, skip or key wait leaves pc at A + 2; a skip leaves it there or 2
further; a fault leaves it there, as D5 has it (log 12). -/
def Obligations.PcAfterEveryInstruction : Prop :=
  ∀ (i : Instr) (s t : State), exec i s = .next t → t.pc ≠ s.pc →
    t.halt = s.halt ∧
    ((i = .ret ∨ (∃ nnn, i = .jp nnn ∨ i = .jpV0 nnn ∨ i = .call nnn)) ∨
     ((∃ x nn, i = .seByte x nn ∨ i = .sneByte x nn) ∧ t.pc = s.pc + 2) ∨
     ((∃ x y, i = .seReg x y ∨ i = .sneReg x y) ∧ t.pc = s.pc + 2) ∨
     ((∃ x, i = .skp x ∨ i = .sknp x) ∧ t.pc = s.pc + 2) ∨
     ((∃ x, i = .ldVxK x) ∧ t.pc = s.pc - 2))

/-- R14, R29 (the logic instructions by D13, log 13): VF changes only as the named destination of an instruction or as
the flag of one of the six flag writers, which leave 0 or 1 in it unless they fault. -/
def Obligations.VfIsWrittenOnlyAsFlagOrDestination : Prop :=
  ∀ (i : Instr) (s t : State), exec i s = .next t → readReg t 15 ≠ readReg s 15 →
    ((∃ x y, i = .addReg x y ∨ i = .subReg x y ∨ i = .subnReg x y ∨ i = .shr x ∨ i = .shl x ∨
        ∃ n, i = .drw x y n) ∧ (readReg t 15 = 0 ∨ readReg t 15 = 1)) ∨
    (∃ nn, i = .ldByte 15 nn ∨ i = .addByte 15 nn ∨ i = .rnd 15 nn) ∨
    (∃ y, i = .ldReg 15 y ∨ i = .orReg 15 y ∨ i = .andReg 15 y ∨ i = .xorReg 15 y) ∨
    i = .ldVxDt 15 ∨ i = .ldVxK 15 ∨ i = .ldVxMem 15

/-- R22, R115: ST is read by nothing. With another value in ST an instruction answers the same state, with that value in
ST, but for LD ST, which replaces it. -/
def Obligations.NoInstructionReadsTheSoundTimer : Prop :=
  ∀ (i : Instr) (s t : State) (b : Byte), exec i s = .next t →
    ((∀ x, i ≠ .ldStVx x) → exec i (setSt b s) = .next (setSt b t)) ∧
    (∀ x, i = .ldStVx x → exec i (setSt b s) = .next t)

/-- R21, R25, R42: KEY changes only by a KeyEvent; MEM and FB change only by a Cycle; V, I, pc, sp and the stack only by a
Cycle or Initialize; the timers only by a tick, by Initialize, or by a Cycle of a running machine whose word is LD DT or
LD ST. What Initialize writes is D19, that one tick serves both timers D21 (log 14); the schedule is the model's (log 1). -/
def Obligations.OnlyTheNamedStepsReachDevices : Prop :=
  ∀ s t : State, step s = .next t →
    (t.key ≠ s.key → ∃ k pressed rest, s.schedule = .keyEvent k pressed :: rest) ∧
    ((t.fb ≠ s.fb ∨ t.mem ≠ s.mem) → s.schedule = [] ∨ ∃ rest, s.schedule = .cycle :: rest) ∧
    ((t.v ≠ s.v ∨ t.index ≠ s.index ∨ t.pc ≠ s.pc ∨ t.sp ≠ s.sp ∨ t.stack ≠ s.stack) →
      s.schedule = [] ∨ ∃ rest, s.schedule = .cycle :: rest ∨ s.schedule = .initializeProcessor :: rest) ∧
    (t.dt ≠ s.dt → (∃ rest, s.schedule = .timerTick :: rest ∨ s.schedule = .initializeProcessor :: rest) ∨
      (s.halt = 0 ∧ (s.schedule = [] ∨ ∃ rest, s.schedule = .cycle :: rest) ∧
        ∃ w x, fetchWord s = some w ∧ decodeWord w = .ok (.ldDtVx x))) ∧
    (t.st ≠ s.st → (∃ rest, s.schedule = .timerTick :: rest ∨ s.schedule = .initializeProcessor :: rest) ∨
      (s.halt = 0 ∧ (s.schedule = [] ∨ ∃ rest, s.schedule = .cycle :: rest) ∧
        ∃ w x, fetchWord s = some w ∧ decodeWord w = .ok (.ldStVx x)))

/-- D5, D7 (R125, R139; log 7, log 12): the latches of a halted machine keep the first fatal fault, and UNK once set stays
set, until Initialize. -/
def Obligations.OnlyInitializeLeavesTheHaltedState : Prop :=
  ∀ s t : State, step s = .next t → (∀ rest, s.schedule ≠ .initializeProcessor :: rest) →
    (s.halt ≠ 0 → t.halt = s.halt ∧ t.haltPc = s.haltPc ∧ t.haltInfo = s.haltInfo ∧ t.pc = s.pc ∧ t.v = s.v) ∧
    (s.unk = true → t.unk = true)

/-- R149 with D30 (log 15): a finished program is a fixed point of Cycle; a scheduled Cycle leaves the schedule (log 1). -/
def Obligations.FinishedProgramIsAFixedPoint : Prop :=
  ∀ s c : State, CycleStarts s c → Finished s → step s = .next c
end

