-- ==== Sys2Proof/Laws/Decode.lean ====
section
/-! SUPPORT. The fields of a word and the words of a format as numbers, one lemma each, so that proofs about decoding and
encoding are arithmetic. -/

namespace Sys2Proof

theorem toNat_lt_65536 (w : Word) : w.toNat < 65536 := w.isLt

/-! ## Fields -/

@[simp] theorem opField_toNat (w : Word) : (opField w).toNat = w.toNat / 4096 := by
  have := w.isLt
  simp only [opField, BitVec.extractLsb'_toNat, Nat.shiftRight_eq_div_pow]
  omega

@[simp] theorem xField_val (w : Word) : (xField w).val = w.toNat / 256 % 16 := by
  have h : (xField w).val = (w.extractLsb' 8 4).toNat := rfl
  rw [h, BitVec.extractLsb'_toNat, Nat.shiftRight_eq_div_pow]

@[simp] theorem yField_val (w : Word) : (yField w).val = w.toNat / 16 % 16 := by
  have h : (yField w).val = (w.extractLsb' 4 4).toNat := rfl
  rw [h, BitVec.extractLsb'_toNat, Nat.shiftRight_eq_div_pow]

@[simp] theorem nField_toNat (w : Word) : (nField w).toNat = w.toNat % 16 := by
  simp only [nField, BitVec.extractLsb'_toNat, Nat.shiftRight_eq_div_pow]
  omega

@[simp] theorem nnField_toNat (w : Word) : (nnField w).toNat = w.toNat % 256 := by
  simp only [nnField, BitVec.extractLsb'_toNat, Nat.shiftRight_eq_div_pow]
  omega

@[simp] theorem nnnField_toNat (w : Word) : (nnnField w).toNat = w.toNat % 4096 := by
  simp only [nnnField, BitVec.extractLsb'_toNat, Nat.shiftRight_eq_div_pow]
  omega

/-! ## Words of two bytes -/

@[simp] theorem wordOfBytes_toNat (hi lo : Byte) : (wordOfBytes hi lo).toNat = 256 * hi.toNat + lo.toNat := by
  have h : (hi ++ lo).toNat = 256 * hi.toNat + lo.toNat := by
    rw [BitVec.toNat_append, ← Nat.shiftLeft_add_eq_or_of_lt lo.isLt, Nat.shiftLeft_eq]
    omega
  exact h

/-- Laying a word's bytes out and reading them back gives the word. -/
theorem wordOfBytes_bytesOfWord (w : Word) :
    wordOfBytes (w.extractLsb' 8 8) (w.extractLsb' 0 8) = w := by
  have := w.isLt
  apply BitVec.eq_of_toNat_eq
  rw [wordOfBytes_toNat]
  simp only [BitVec.extractLsb'_toNat, Nat.shiftRight_eq_div_pow]
  omega

/-- Decoding the two bytes of a word is decoding the word. -/
theorem decode_bytesOfWord (w : Word) (rest : List Byte) :
    decode (bytesOfWord w ++ rest) =
      match decodeWord w with
      | .ok i => .ok (i, rest)
      | .error g => .error (.unknown g) := by
  simp only [bytesOfWord, List.cons_append, List.nil_append, decode, wordOfBytes_bytesOfWord] <;> rfl

/-! ## Formats -/

@[simp] theorem regBits_toNat (r : Reg) : (regBits r).toNat = r.val := rfl

@[simp] theorem formatA_toNat (op : BitVec 4) (nnn : Addr) :
    (formatA op nnn).toNat = 4096 * op.toNat + nnn.toNat := by
  have h : (op ++ nnn).toNat = 4096 * op.toNat + nnn.toNat := by
    rw [BitVec.toNat_append, ← Nat.shiftLeft_add_eq_or_of_lt nnn.isLt, Nat.shiftLeft_eq]
    omega
  exact h

@[simp] theorem formatXB_toNat (op : BitVec 4) (x : Reg) (nn : Byte) :
    (formatXB op x nn).toNat = 4096 * op.toNat + 256 * x.val + nn.toNat := by
  have h : (op ++ regBits x ++ nn).toNat = 4096 * op.toNat + 256 * x.val + nn.toNat := by
    rw [BitVec.toNat_append, ← Nat.shiftLeft_add_eq_or_of_lt nn.isLt, BitVec.toNat_append,
      ← Nat.shiftLeft_add_eq_or_of_lt (regBits x).isLt, Nat.shiftLeft_eq, Nat.shiftLeft_eq, regBits_toNat]
    omega
  exact h

@[simp] theorem formatXYN_toNat (op : BitVec 4) (x y : Reg) (n : Nibble) :
    (formatXYN op x y n).toNat = 4096 * op.toNat + 256 * x.val + 16 * y.val + n.toNat := by
  have h : (op ++ regBits x ++ regBits y ++ n).toNat = 4096 * op.toNat + 256 * x.val + 16 * y.val + n.toNat := by
    rw [BitVec.toNat_append, ← Nat.shiftLeft_add_eq_or_of_lt n.isLt, BitVec.toNat_append,
      ← Nat.shiftLeft_add_eq_or_of_lt (regBits y).isLt, BitVec.toNat_append,
      ← Nat.shiftLeft_add_eq_or_of_lt (regBits x).isLt, Nat.shiftLeft_eq, Nat.shiftLeft_eq, Nat.shiftLeft_eq,
      regBits_toNat, regBits_toNat]
    omega
  exact h

/-! ## Decoding by the group of a word -/

/-- Decode by the high nibble as a number: rewrite with the nibble's value to pick the arm. -/

theorem decodeWord_eq (w : Word) :
    decodeWord w =
      match w.toNat / 4096 with
      | 0x0 => decodeGroup0 w
      | 0x1 => .ok (.jp (nnnField w))
      | 0x2 => .ok (.call (nnnField w))
      | 0x3 => .ok (.seByte (xField w) (nnField w))
      | 0x4 => .ok (.sneByte (xField w) (nnField w))
      | 0x5 => .ok (.seReg (xField w) (yField w))
      | 0x6 => .ok (.ldByte (xField w) (nnField w))
      | 0x7 => .ok (.addByte (xField w) (nnField w))
      | 0x8 => decodeGroup8 w
      | 0x9 => .ok (.sneReg (xField w) (yField w))
      | 0xA => .ok (.ldI (nnnField w))
      | 0xB => .ok (.jpV0 (nnnField w))
      | 0xC => .ok (.rnd (xField w) (nnField w))
      | 0xD => .ok (.drw (xField w) (yField w) (nField w))
      | 0xE => decodeGroupE w
      | _ => decodeGroupF w := by
  rw [decodeWord, opField_toNat] <;> rfl

/-! ## Fields of a word given by its number -/

theorem nnnField_eq {w : Word} {nnn : Addr} (h : w.toNat % 4096 = nnn.toNat) : nnnField w = nnn :=
  BitVec.eq_of_toNat_eq (by rw [nnnField_toNat, h])

theorem nnField_eq {w : Word} {nn : Byte} (h : w.toNat % 256 = nn.toNat) : nnField w = nn :=
  BitVec.eq_of_toNat_eq (by rw [nnField_toNat, h])

theorem nField_eq {w : Word} {n : Nibble} (h : w.toNat % 16 = n.toNat) : nField w = n :=
  BitVec.eq_of_toNat_eq (by rw [nField_toNat, h])

theorem xField_eq {w : Word} {x : Reg} (h : w.toNat / 256 % 16 = x.val) : xField w = x :=
  Fin.ext (by rw [xField_val, h])

theorem yField_eq {w : Word} {y : Reg} (h : w.toNat / 16 % 16 = y.val) : yField w = y :=
  Fin.ext (by rw [yField_val, h])

end Sys2Proof
end

