-- ==== Sys2Proof/Laws/Display.lean ====
section
/-! SUPPORT. The compositor, said once: which pixels a blit turns over and when it reports a collision (45_display.md
R99, properties (c) and (d)). -/

namespace Sys2Proof.Machine

@[simp] theorem Frame.pixel_clear (x : Fin 64) (y : Fin 32) : Frame.pixel Frame.clear x y = false := by
  simp [Frame.pixel, Frame.clear]

/-- A frame is known by its pixels. -/
theorem Frame.ext_pixel {f g : Frame} (h : ∀ x y, Frame.pixel f x y = Frame.pixel g x y) : f = g :=
  Vector.ext fun j hj => Vector.ext fun k hk => h ⟨k, hk⟩ ⟨j, hj⟩

theorem Frame.pixel_toggle (fb : Frame) (p : Fin 64 × Fin 32) (x : Fin 64) (y : Fin 32) :
    Frame.pixel (Frame.toggle fb p) x y = (if p = (x, y) then !Frame.pixel fb x y else Frame.pixel fb x y) := by
  obtain ⟨px, py⟩ := p
  by_cases hy : py = y
  · subst hy
    by_cases hx : px = x
    · subst hx
      simp [Frame.pixel, Frame.toggle]
    · simp [Frame.pixel, Frame.toggle, hx, Fin.val_ne_of_ne hx]
  · have : ¬ ((px, py) = (x, y)) := fun h => hy (congrArg Prod.snd h)
    simp [Frame.pixel, Frame.toggle, this, Fin.val_ne_of_ne hy]

/-- Turning over distinct pixels one after another turns over exactly those, and the collision is that of the frame
before the first. -/
theorem foldl_blitPixel {l : List (Fin 64 × Fin 32)} (hl : l.Nodup) (fb : Frame) (hit : Bool) :
    (∀ x y, Frame.pixel (l.foldl blitPixel (fb, hit)).1 x y =
      if (x, y) ∈ l then !Frame.pixel fb x y else Frame.pixel fb x y) ∧
    ((l.foldl blitPixel (fb, hit)).2 = true ↔ hit = true ∨ ∃ p ∈ l, Frame.pixel fb p.1 p.2 = true) := by
  induction l generalizing fb hit with
  | nil => simp
  | cons q l ih =>
    obtain ⟨hq, hl⟩ := List.nodup_cons.mp hl
    obtain ⟨h1, h2⟩ := ih hl (Frame.toggle fb q) (hit || Frame.pixel fb q.1 q.2)
    rw [List.foldl_cons]
    refine ⟨fun x y => ?_, ?_⟩
    · rw [blitPixel, h1, Frame.pixel_toggle]
      by_cases hxy : q = (x, y)
      · subst hxy
        simp [hq]
      · simp [hxy, Ne.symm hxy]
    · rw [blitPixel, h2]
      have hsame : ∀ p ∈ l, Frame.pixel (Frame.toggle fb q) p.1 p.2 = Frame.pixel fb p.1 p.2 := fun p hp => by
        rw [Frame.pixel_toggle, if_neg]
        rintro rfl
        exact hq hp
      constructor
      · rintro (h | ⟨p, hp, hlit⟩)
        · rcases (Bool.or_eq_true _ _).mp h with h | h
          · exact .inl h
          · exact .inr ⟨q, List.mem_cons_self, h⟩
        · exact .inr ⟨p, List.mem_cons_of_mem q hp, hsame p hp ▸ hlit⟩
      · rintro (h | ⟨p, hp, hlit⟩)
        · exact .inl (by simp [h])
        · rcases List.mem_cons.mp hp with rfl | hp
          · exact .inl (by simp [hlit])
          · exact .inr ⟨p, hp, (hsame p hp).trans hlit⟩

theorem mem_rowTargets {x y row : Byte} {r : Nat} {p : Fin 64 × Fin 32} :
    p ∈ rowTargets x y r row ↔ ∃ c, c < 8 ∧ row.getLsbD (7 - c) = true ∧ p = targetPixel x y r c := by
  simp only [rowTargets, List.mem_map, List.mem_filter, List.mem_range, Config.spriteWidth]
  exact ⟨fun ⟨c, h, e⟩ => ⟨c, h.1, h.2, e.symm⟩, fun ⟨c, h, h', e⟩ => ⟨c, ⟨h, h'⟩, e.symm⟩⟩

theorem mem_spriteTargets {x y : Byte} {rows : List Byte} {r0 : Nat} {p : Fin 64 × Fin 32} :
    p ∈ spriteTargets x y r0 rows ↔
      ∃ r c, ∃ h : r < rows.length, c < 8 ∧ (rows[r]).getLsbD (7 - c) = true ∧ p = targetPixel x y (r0 + r) c := by
  induction rows generalizing r0 with
  | nil => simp [spriteTargets]
  | cons row rows ih =>
    rw [spriteTargets, List.mem_append, mem_rowTargets, ih]
    constructor
    · rintro (⟨c, hc, hb, rfl⟩ | ⟨r, c, h, hc, hb, rfl⟩)
      · exact ⟨0, c, by simp, hc, hb, rfl⟩
      · exact ⟨r + 1, c, by simpa using h, hc, hb, by rw [show r0 + (r + 1) = r0 + 1 + r by omega]⟩
    · rintro ⟨r, c, h, hc, hb, rfl⟩
      cases r with
      | zero => exact .inl ⟨c, hc, hb, rfl⟩
      | succ r =>
        exact .inr ⟨r, c, by simpa using h, hc, hb, by rw [show r0 + (r + 1) = r0 + 1 + r by omega]⟩

/-- Different rows and columns of one sprite fall on different pixels (R99 (c)). -/
theorem targetPixel_inj {x y : Byte} {r r' c c' : Nat} (hr : r < 32) (hr' : r' < 32) (hc : c < 8) (hc' : c' < 8)
    (h : targetPixel x y r c = targetPixel x y r' c') : r = r' ∧ c = c' := by
  have h1 := congrArg (fun p => p.1.val) h
  have h2 := congrArg (fun p => p.2.val) h
  simp only [targetPixel, Fin.val_ofNat] at h1 h2
  omega

theorem nodup_rowTargets (x y row : Byte) {r : Nat} (hr : r < 32) : (rowTargets x y r row).Nodup := by
  refine List.Nodup.map_on ?_ (List.Nodup.filter _ List.nodup_range)
  intro c hc c' hc' h
  simp only [List.mem_filter, List.mem_range, Config.spriteWidth] at hc hc'
  exact (targetPixel_inj hr hr hc.1 hc'.1 h).2

theorem nodup_spriteTargets (x y : Byte) {rows : List Byte} {r0 : Nat} (h : r0 + rows.length ≤ 32) :
    (spriteTargets x y r0 rows).Nodup := by
  induction rows generalizing r0 with
  | nil => simp [spriteTargets]
  | cons row rows ih =>
    simp only [List.length_cons] at h
    refine List.Nodup.append (nodup_rowTargets x y row (by omega)) (ih (by omega)) ?_
    intro p hp hp'
    obtain ⟨c, hc, -, rfl⟩ := mem_rowTargets.mp hp
    obtain ⟨r, c', hr, hc', -, heq⟩ := mem_spriteTargets.mp hp'
    have := (targetPixel_inj (by omega) (by omega) hc hc' heq).1
    omega

/-- What a blit of at most 32 rows does: it turns over the target pixels, and collides when one of them was lit. -/
theorem blit_spec (fb : Frame) (x y : Byte) {rows : List Byte} (h : rows.length ≤ 32) :
    (∀ px py, Frame.pixel (blit fb x y rows).1 px py =
      if (px, py) ∈ spriteTargets x y 0 rows then !Frame.pixel fb px py else Frame.pixel fb px py) ∧
    ((blit fb x y rows).2 = true ↔ ∃ p ∈ spriteTargets x y 0 rows, Frame.pixel fb p.1 p.2 = true) := by
  have := foldl_blitPixel (nodup_spriteTargets x y (r0 := 0) (rows := rows) (by omega)) fb false
  simpa [blit] using this

end Sys2Proof.Machine
end

