-- ==== Sys2Proof/Laws/Memory.lean ====
section
/-! SUPPORT. The laws of memory: every operation keeps the canonical form, a read after a write gives the byte written,
and a write leaves every other address alone. -/

namespace Sys2Proof.Machine

@[simp] theorem Memory.read_nil (a : Nat) : Memory.read [] a = Memory.unlisted a := rfl

theorem Memory.wfFrom_mono {lo lo' : Nat} {m : Memory} (hle : lo' ≤ lo) (h : Memory.wfFrom lo m = true) :
    Memory.wfFrom lo' m = true := by
  cases m with
  | nil => rfl
  | cons c m =>
    obtain ⟨a, v⟩ := c
    simp only [Memory.wfFrom, Bool.and_eq_true, decide_eq_true_eq] at h ⊢
    exact ⟨⟨⟨by omega, h.1.1.2⟩, h.1.2⟩, h.2⟩

/-- Below the first address of a canonical memory nothing is listed. -/
theorem Memory.read_below {lo a : Nat} {m : Memory} (h : Memory.wfFrom lo m = true) (ha : a < lo) :
    Memory.read m a = Memory.unlisted a := by
  induction m generalizing lo with
  | nil => rfl
  | cons c m ih =>
    obtain ⟨b, v⟩ := c
    simp only [Memory.wfFrom, Bool.and_eq_true, decide_eq_true_eq] at h
    rw [Memory.read, if_neg (by omega)]
    exact ih h.2 (by omega)

/-- Nothing is listed at or above 4096. -/
theorem Memory.read_above {lo a : Nat} {m : Memory} (h : Memory.wfFrom lo m = true) (ha : Config.memSize ≤ a) :
    Memory.read m a = Memory.unlisted a := by
  induction m generalizing lo with
  | nil => rfl
  | cons c m ih =>
    obtain ⟨b, v⟩ := c
    simp only [Memory.wfFrom, Bool.and_eq_true, decide_eq_true_eq] at h
    rw [Memory.read, if_neg (by omega)]
    exact ih h.2

theorem Memory.wfFrom_cons {lo a : Nat} {v : Byte} {m : Memory} (hlo : lo ≤ a) (ha : a < Config.memSize)
    (h : Memory.wfFrom (a + 1) m = true) : Memory.wfFrom lo (Memory.cons a v m) = true := by
  unfold Memory.cons
  split
  · exact Memory.wfFrom_mono (by omega) h
  · simp_all [Memory.wfFrom]

theorem Memory.wfFrom_write {lo a : Nat} {v : Byte} {m : Memory} (hlo : lo ≤ a) (ha : a < Config.memSize)
    (h : Memory.wfFrom lo m = true) : Memory.wfFrom lo (Memory.write m a v) = true := by
  induction m generalizing lo with
  | nil => exact Memory.wfFrom_cons hlo ha rfl
  | cons c m ih =>
    obtain ⟨b, w⟩ := c
    have hc := h
    simp only [Memory.wfFrom, Bool.and_eq_true, decide_eq_true_eq] at h
    simp only [Memory.write]
    split
    · refine Memory.wfFrom_cons hlo ha ?_
      simp only [Memory.wfFrom, Bool.and_eq_true, decide_eq_true_eq]
      exact ⟨⟨⟨by omega, h.1.1.2⟩, h.1.2⟩, h.2⟩
    · split
      · exact Memory.wfFrom_cons hlo ha (by simp_all)
      · simp only [Memory.wfFrom, Bool.and_eq_true, decide_eq_true_eq]
        exact ⟨h.1, ih (by omega) h.2⟩

/-- A write inside the address space keeps the canonical form. -/
theorem Memory.wf_write {m : Memory} (h : Memory.wf m = true) {a : Nat} (ha : a < Config.memSize) (v : Byte) :
    Memory.wf (Memory.write m a v) = true :=
  Memory.wfFrom_write (Nat.zero_le a) ha h

theorem Memory.read_cons {lo a : Nat} {m : Memory} (h : Memory.wfFrom lo m = true) (ha : a < lo) (v : Byte) (x : Nat) :
    Memory.read (Memory.cons a v m) x = if x = a then v else Memory.read m x := by
  unfold Memory.cons
  split
  · split
    · subst_vars
      exact Memory.read_below h ha
    · rfl
  · rfl

theorem Memory.read_writeFrom {lo : Nat} {m : Memory} (h : Memory.wfFrom lo m = true) (a : Nat) (v : Byte) (x : Nat) :
    Memory.read (Memory.write m a v) x = if x = a then v else Memory.read m x := by
  induction m generalizing lo with
  | nil => exact Memory.read_cons (lo := a + 1) rfl (by omega) v x
  | cons c m ih =>
    obtain ⟨b, w⟩ := c
    have hc := h
    simp only [Memory.wfFrom, Bool.and_eq_true, decide_eq_true_eq] at h
    simp only [Memory.write]
    split
    · refine Memory.read_cons (lo := b) ?_ (by assumption) v x
      simp only [Memory.wfFrom, Bool.and_eq_true, decide_eq_true_eq]
      exact ⟨⟨⟨by omega, h.1.1.2⟩, h.1.2⟩, h.2⟩
    · split
      · subst_vars
        rw [Memory.read_cons h.2 (by omega)]
        simp only [Memory.read]
        split <;> rfl
      · simp only [Memory.read, ih h.2]
        split
        · rw [if_neg (by omega)]
        · rfl

/-- What every address reads as after a write. -/
theorem Memory.read_write {m : Memory} (h : Memory.wf m = true) (a : Nat) (v : Byte) (x : Nat) :
    Memory.read (Memory.write m a v) x = if x = a then v else Memory.read m x :=
  Memory.read_writeFrom h a v x

/-- A run of writes inside the address space keeps the canonical form. -/
theorem Memory.wf_writeBytes {vs : List Byte} {m : Memory} (h : Memory.wf m = true) {a : Nat}
    (ha : a + vs.length ≤ Config.memSize) : Memory.wf (Memory.writeBytes m a vs) = true := by
  induction vs generalizing m a with
  | nil => exact h
  | cons v vs ih =>
    simp only [List.length_cons] at ha
    exact ih (Memory.wf_write h (by omega) v) (by omega)

/-- What every address reads as after a run of writes inside the address space. -/
theorem Memory.read_writeBytes {vs : List Byte} {m : Memory} (h : Memory.wf m = true) {a : Nat}
    (ha : a + vs.length ≤ Config.memSize) (x : Nat) :
    Memory.read (Memory.writeBytes m a vs) x =
      if a ≤ x ∧ x < a + vs.length then vs[x - a]?.getD 0 else Memory.read m x := by
  induction vs generalizing m a with
  | nil => rw [if_neg (by simp only [List.length_nil]; omega)]; rfl
  | cons v vs ih =>
    simp only [List.length_cons] at ha ⊢
    rw [Memory.writeBytes, ih (Memory.wf_write h (by omega) v) (by omega), Memory.read_write h]
    by_cases hx : x = a
    · subst hx
      rw [if_neg (by omega), if_pos rfl, if_pos (by omega)]
      simp
    · rw [if_neg hx]
      by_cases hin : a + 1 ≤ x ∧ x < a + 1 + vs.length
      · rw [if_pos hin, if_pos (by omega), show x - a = (x - (a + 1)) + 1 by omega, List.getElem?_cons_succ]
      · rw [if_neg hin, if_neg (by omega)]

/-- `MemRead` answers exactly when the run lies inside memory, and then with the bytes in rising order (R38). -/
theorem memRead_eq_some_iff {m : Memory} {a n : Nat} {bs : List Byte} :
    memRead m a n = some bs ↔
      a + n ≤ Config.memSize ∧ bs = (List.range n).map fun k => Memory.read m (a + k) := by
  simp [memRead, inRange, eq_comm]

theorem memRead_eq_none_iff {m : Memory} {a n : Nat} : memRead m a n = none ↔ Config.memSize < a + n := by
  simp [memRead, inRange]

/-- `MemWrite` answers exactly when the run lies inside memory (R39). -/
theorem memWrite_eq_some_iff {m m' : Memory} {a : Nat} {vs : List Byte} :
    memWrite m a vs = some m' ↔ a + vs.length ≤ Config.memSize ∧ m' = Memory.writeBytes m a vs := by
  simp [memWrite, inRange, eq_comm]

theorem memWrite_eq_none_iff {m : Memory} {a : Nat} {vs : List Byte} :
    memWrite m a vs = none ↔ Config.memSize < a + vs.length := by
  simp [memWrite, inRange]

/-- The two facts of a run that was written: the form is kept, and what every address reads as. -/
theorem memWrite_spec {m m' : Memory} {a : Nat} {vs : List Byte} (h : Memory.wf m = true)
    (hw : memWrite m a vs = some m') :
    Memory.wf m' = true ∧
      ∀ x, Memory.read m' x = if a ≤ x ∧ x < a + vs.length then vs[x - a]?.getD 0 else Memory.read m x := by
  obtain ⟨hr, rfl⟩ := memWrite_eq_some_iff.mp hw
  exact ⟨Memory.wf_writeBytes h hr, Memory.read_writeBytes h hr⟩

/-- Equal contents are equal lists: two canonical memories that read the same are the same. -/
theorem Memory.ext_of_wfFrom {lo : Nat} {m m' : Memory} (h : Memory.wfFrom lo m = true)
    (h' : Memory.wfFrom lo m' = true) (hr : ∀ a, Memory.read m a = Memory.read m' a) : m = m' := by
  induction m generalizing lo m' with
  | nil =>
    cases m' with
    | nil => rfl
    | cons c m' =>
      obtain ⟨b, v⟩ := c
      simp only [Memory.wfFrom, Bool.and_eq_true, decide_eq_true_eq] at h'
      have := hr b
      simp [Memory.read] at this
      exact absurd this.symm h'.1.2
  | cons c m ih =>
    obtain ⟨a, w⟩ := c
    have hm := h
    simp only [Memory.wfFrom, Bool.and_eq_true, decide_eq_true_eq] at h
    cases m' with
    | nil =>
      have := hr a
      simp [Memory.read] at this
      exact absurd this h.1.2
    | cons c' m' =>
      obtain ⟨b, v⟩ := c'
      have hm' := h'
      simp only [Memory.wfFrom, Bool.and_eq_true, decide_eq_true_eq] at h'
      have hab : a = b := by
        by_contra hne
        rcases Nat.lt_or_gt_of_ne hne with hlt | hgt
        · have := hr a
          rw [Memory.read_below (lo := b) (m := (b, v) :: m')
            (by simp only [Memory.wfFrom, Bool.and_eq_true, decide_eq_true_eq]; exact ⟨⟨⟨le_refl b, h'.1.1.2⟩, h'.1.2⟩, h'.2⟩) hlt] at this
          simp [Memory.read] at this
          exact h.1.2 this
        · have := hr b
          rw [Memory.read_below (lo := a) (m := (a, w) :: m)
            (by simp only [Memory.wfFrom, Bool.and_eq_true, decide_eq_true_eq]; exact ⟨⟨⟨le_refl a, h.1.1.2⟩, h.1.2⟩, h.2⟩) hgt] at this
          simp [Memory.read] at this
          exact h'.1.2 this.symm
      subst hab
      have hwv : w = v := by simpa [Memory.read] using hr a
      subst hwv
      rw [ih h.2 h'.2 fun x => ?_]
      by_cases hx : x = a
      · subst hx
        rw [Memory.read_below h.2 (by omega), Memory.read_below h'.2 (by omega)]
      · simpa [Memory.read, hx] using hr x

theorem Memory.ext_of_wf {m m' : Memory} (h : Memory.wf m = true) (h' : Memory.wf m' = true)
    (hr : ∀ a, Memory.read m a = Memory.read m' a) : m = m' :=
  Memory.ext_of_wfFrom h h' hr

end Sys2Proof.Machine
end

