-- ==== Sys2Proof/Laws/State.lean ====
section
/-! SUPPORT. What each update of Machine/Ops.lean leaves in each field: one lemma per field per update, so that no proof
unfolds a record update. -/

namespace Sys2Proof.Machine

variable (s : State)

/-! ## setV -/

@[simp] theorem setV_v (u : Vector Byte 16) : (setV u s).v = u := rfl
@[simp] theorem setV_index (u : Vector Byte 16) : (setV u s).index = s.index := rfl
@[simp] theorem setV_pc (u : Vector Byte 16) : (setV u s).pc = s.pc := rfl
@[simp] theorem setV_stack (u : Vector Byte 16) : (setV u s).stack = s.stack := rfl
@[simp] theorem setV_sp (u : Vector Byte 16) : (setV u s).sp = s.sp := rfl
@[simp] theorem setV_dt (u : Vector Byte 16) : (setV u s).dt = s.dt := rfl
@[simp] theorem setV_st (u : Vector Byte 16) : (setV u s).st = s.st := rfl
@[simp] theorem setV_mem (u : Vector Byte 16) : (setV u s).mem = s.mem := rfl
@[simp] theorem setV_fb (u : Vector Byte 16) : (setV u s).fb = s.fb := rfl
@[simp] theorem setV_key (u : Vector Byte 16) : (setV u s).key = s.key := rfl
@[simp] theorem setV_halt (u : Vector Byte 16) : (setV u s).halt = s.halt := rfl
@[simp] theorem setV_haltPc (u : Vector Byte 16) : (setV u s).haltPc = s.haltPc := rfl
@[simp] theorem setV_haltInfo (u : Vector Byte 16) : (setV u s).haltInfo = s.haltInfo := rfl
@[simp] theorem setV_unk (u : Vector Byte 16) : (setV u s).unk = s.unk := rfl
@[simp] theorem setV_reports (u : Vector Byte 16) : (setV u s).reports = s.reports := rfl
@[simp] theorem setV_schedule (u : Vector Byte 16) : (setV u s).schedule = s.schedule := rfl
@[simp] theorem setV_draws (u : Vector Byte 16) : (setV u s).draws = s.draws := rfl
@[simp] theorem setV_drawCount (u : Vector Byte 16) : (setV u s).drawCount = s.drawCount := rfl

/-! ## setIndex -/

@[simp] theorem setIndex_v (w : Word) : (setIndex w s).v = s.v := rfl
@[simp] theorem setIndex_index (w : Word) : (setIndex w s).index = w := rfl
@[simp] theorem setIndex_pc (w : Word) : (setIndex w s).pc = s.pc := rfl
@[simp] theorem setIndex_stack (w : Word) : (setIndex w s).stack = s.stack := rfl
@[simp] theorem setIndex_sp (w : Word) : (setIndex w s).sp = s.sp := rfl
@[simp] theorem setIndex_dt (w : Word) : (setIndex w s).dt = s.dt := rfl
@[simp] theorem setIndex_st (w : Word) : (setIndex w s).st = s.st := rfl
@[simp] theorem setIndex_mem (w : Word) : (setIndex w s).mem = s.mem := rfl
@[simp] theorem setIndex_fb (w : Word) : (setIndex w s).fb = s.fb := rfl
@[simp] theorem setIndex_key (w : Word) : (setIndex w s).key = s.key := rfl
@[simp] theorem setIndex_halt (w : Word) : (setIndex w s).halt = s.halt := rfl
@[simp] theorem setIndex_haltPc (w : Word) : (setIndex w s).haltPc = s.haltPc := rfl
@[simp] theorem setIndex_haltInfo (w : Word) : (setIndex w s).haltInfo = s.haltInfo := rfl
@[simp] theorem setIndex_unk (w : Word) : (setIndex w s).unk = s.unk := rfl
@[simp] theorem setIndex_reports (w : Word) : (setIndex w s).reports = s.reports := rfl
@[simp] theorem setIndex_schedule (w : Word) : (setIndex w s).schedule = s.schedule := rfl
@[simp] theorem setIndex_draws (w : Word) : (setIndex w s).draws = s.draws := rfl
@[simp] theorem setIndex_drawCount (w : Word) : (setIndex w s).drawCount = s.drawCount := rfl

/-! ## setPc -/

@[simp] theorem setPc_v (w : Word) : (setPc w s).v = s.v := rfl
@[simp] theorem setPc_index (w : Word) : (setPc w s).index = s.index := rfl
@[simp] theorem setPc_pc (w : Word) : (setPc w s).pc = w := rfl
@[simp] theorem setPc_stack (w : Word) : (setPc w s).stack = s.stack := rfl
@[simp] theorem setPc_sp (w : Word) : (setPc w s).sp = s.sp := rfl
@[simp] theorem setPc_dt (w : Word) : (setPc w s).dt = s.dt := rfl
@[simp] theorem setPc_st (w : Word) : (setPc w s).st = s.st := rfl
@[simp] theorem setPc_mem (w : Word) : (setPc w s).mem = s.mem := rfl
@[simp] theorem setPc_fb (w : Word) : (setPc w s).fb = s.fb := rfl
@[simp] theorem setPc_key (w : Word) : (setPc w s).key = s.key := rfl
@[simp] theorem setPc_halt (w : Word) : (setPc w s).halt = s.halt := rfl
@[simp] theorem setPc_haltPc (w : Word) : (setPc w s).haltPc = s.haltPc := rfl
@[simp] theorem setPc_haltInfo (w : Word) : (setPc w s).haltInfo = s.haltInfo := rfl
@[simp] theorem setPc_unk (w : Word) : (setPc w s).unk = s.unk := rfl
@[simp] theorem setPc_reports (w : Word) : (setPc w s).reports = s.reports := rfl
@[simp] theorem setPc_schedule (w : Word) : (setPc w s).schedule = s.schedule := rfl
@[simp] theorem setPc_draws (w : Word) : (setPc w s).draws = s.draws := rfl
@[simp] theorem setPc_drawCount (w : Word) : (setPc w s).drawCount = s.drawCount := rfl

/-! ## setSp -/

@[simp] theorem setSp_v (k : Fin 16) : (setSp k s).v = s.v := rfl
@[simp] theorem setSp_index (k : Fin 16) : (setSp k s).index = s.index := rfl
@[simp] theorem setSp_pc (k : Fin 16) : (setSp k s).pc = s.pc := rfl
@[simp] theorem setSp_stack (k : Fin 16) : (setSp k s).stack = s.stack := rfl
@[simp] theorem setSp_sp (k : Fin 16) : (setSp k s).sp = k := rfl
@[simp] theorem setSp_dt (k : Fin 16) : (setSp k s).dt = s.dt := rfl
@[simp] theorem setSp_st (k : Fin 16) : (setSp k s).st = s.st := rfl
@[simp] theorem setSp_mem (k : Fin 16) : (setSp k s).mem = s.mem := rfl
@[simp] theorem setSp_fb (k : Fin 16) : (setSp k s).fb = s.fb := rfl
@[simp] theorem setSp_key (k : Fin 16) : (setSp k s).key = s.key := rfl
@[simp] theorem setSp_halt (k : Fin 16) : (setSp k s).halt = s.halt := rfl
@[simp] theorem setSp_haltPc (k : Fin 16) : (setSp k s).haltPc = s.haltPc := rfl
@[simp] theorem setSp_haltInfo (k : Fin 16) : (setSp k s).haltInfo = s.haltInfo := rfl
@[simp] theorem setSp_unk (k : Fin 16) : (setSp k s).unk = s.unk := rfl
@[simp] theorem setSp_reports (k : Fin 16) : (setSp k s).reports = s.reports := rfl
@[simp] theorem setSp_schedule (k : Fin 16) : (setSp k s).schedule = s.schedule := rfl
@[simp] theorem setSp_draws (k : Fin 16) : (setSp k s).draws = s.draws := rfl
@[simp] theorem setSp_drawCount (k : Fin 16) : (setSp k s).drawCount = s.drawCount := rfl

/-! ## setSlot -/

@[simp] theorem setSlot_v (k : Fin 16) (w : Word) : (setSlot k w s).v = s.v := rfl
@[simp] theorem setSlot_index (k : Fin 16) (w : Word) : (setSlot k w s).index = s.index := rfl
@[simp] theorem setSlot_pc (k : Fin 16) (w : Word) : (setSlot k w s).pc = s.pc := rfl
@[simp] theorem setSlot_stack (k : Fin 16) (w : Word) : (setSlot k w s).stack = s.stack.set k w := rfl
@[simp] theorem setSlot_sp (k : Fin 16) (w : Word) : (setSlot k w s).sp = s.sp := rfl
@[simp] theorem setSlot_dt (k : Fin 16) (w : Word) : (setSlot k w s).dt = s.dt := rfl
@[simp] theorem setSlot_st (k : Fin 16) (w : Word) : (setSlot k w s).st = s.st := rfl
@[simp] theorem setSlot_mem (k : Fin 16) (w : Word) : (setSlot k w s).mem = s.mem := rfl
@[simp] theorem setSlot_fb (k : Fin 16) (w : Word) : (setSlot k w s).fb = s.fb := rfl
@[simp] theorem setSlot_key (k : Fin 16) (w : Word) : (setSlot k w s).key = s.key := rfl
@[simp] theorem setSlot_halt (k : Fin 16) (w : Word) : (setSlot k w s).halt = s.halt := rfl
@[simp] theorem setSlot_haltPc (k : Fin 16) (w : Word) : (setSlot k w s).haltPc = s.haltPc := rfl
@[simp] theorem setSlot_haltInfo (k : Fin 16) (w : Word) : (setSlot k w s).haltInfo = s.haltInfo := rfl
@[simp] theorem setSlot_unk (k : Fin 16) (w : Word) : (setSlot k w s).unk = s.unk := rfl
@[simp] theorem setSlot_reports (k : Fin 16) (w : Word) : (setSlot k w s).reports = s.reports := rfl
@[simp] theorem setSlot_schedule (k : Fin 16) (w : Word) : (setSlot k w s).schedule = s.schedule := rfl
@[simp] theorem setSlot_draws (k : Fin 16) (w : Word) : (setSlot k w s).draws = s.draws := rfl
@[simp] theorem setSlot_drawCount (k : Fin 16) (w : Word) : (setSlot k w s).drawCount = s.drawCount := rfl

/-! ## setDt -/

@[simp] theorem setDt_v (b : Byte) : (setDt b s).v = s.v := rfl
@[simp] theorem setDt_index (b : Byte) : (setDt b s).index = s.index := rfl
@[simp] theorem setDt_pc (b : Byte) : (setDt b s).pc = s.pc := rfl
@[simp] theorem setDt_stack (b : Byte) : (setDt b s).stack = s.stack := rfl
@[simp] theorem setDt_sp (b : Byte) : (setDt b s).sp = s.sp := rfl
@[simp] theorem setDt_dt (b : Byte) : (setDt b s).dt = b := rfl
@[simp] theorem setDt_st (b : Byte) : (setDt b s).st = s.st := rfl
@[simp] theorem setDt_mem (b : Byte) : (setDt b s).mem = s.mem := rfl
@[simp] theorem setDt_fb (b : Byte) : (setDt b s).fb = s.fb := rfl
@[simp] theorem setDt_key (b : Byte) : (setDt b s).key = s.key := rfl
@[simp] theorem setDt_halt (b : Byte) : (setDt b s).halt = s.halt := rfl
@[simp] theorem setDt_haltPc (b : Byte) : (setDt b s).haltPc = s.haltPc := rfl
@[simp] theorem setDt_haltInfo (b : Byte) : (setDt b s).haltInfo = s.haltInfo := rfl
@[simp] theorem setDt_unk (b : Byte) : (setDt b s).unk = s.unk := rfl
@[simp] theorem setDt_reports (b : Byte) : (setDt b s).reports = s.reports := rfl
@[simp] theorem setDt_schedule (b : Byte) : (setDt b s).schedule = s.schedule := rfl
@[simp] theorem setDt_draws (b : Byte) : (setDt b s).draws = s.draws := rfl
@[simp] theorem setDt_drawCount (b : Byte) : (setDt b s).drawCount = s.drawCount := rfl

/-! ## setSt -/

@[simp] theorem setSt_v (b : Byte) : (setSt b s).v = s.v := rfl
@[simp] theorem setSt_index (b : Byte) : (setSt b s).index = s.index := rfl
@[simp] theorem setSt_pc (b : Byte) : (setSt b s).pc = s.pc := rfl
@[simp] theorem setSt_stack (b : Byte) : (setSt b s).stack = s.stack := rfl
@[simp] theorem setSt_sp (b : Byte) : (setSt b s).sp = s.sp := rfl
@[simp] theorem setSt_dt (b : Byte) : (setSt b s).dt = s.dt := rfl
@[simp] theorem setSt_st (b : Byte) : (setSt b s).st = b := rfl
@[simp] theorem setSt_mem (b : Byte) : (setSt b s).mem = s.mem := rfl
@[simp] theorem setSt_fb (b : Byte) : (setSt b s).fb = s.fb := rfl
@[simp] theorem setSt_key (b : Byte) : (setSt b s).key = s.key := rfl
@[simp] theorem setSt_halt (b : Byte) : (setSt b s).halt = s.halt := rfl
@[simp] theorem setSt_haltPc (b : Byte) : (setSt b s).haltPc = s.haltPc := rfl
@[simp] theorem setSt_haltInfo (b : Byte) : (setSt b s).haltInfo = s.haltInfo := rfl
@[simp] theorem setSt_unk (b : Byte) : (setSt b s).unk = s.unk := rfl
@[simp] theorem setSt_reports (b : Byte) : (setSt b s).reports = s.reports := rfl
@[simp] theorem setSt_schedule (b : Byte) : (setSt b s).schedule = s.schedule := rfl
@[simp] theorem setSt_draws (b : Byte) : (setSt b s).draws = s.draws := rfl
@[simp] theorem setSt_drawCount (b : Byte) : (setSt b s).drawCount = s.drawCount := rfl

/-! ## setMem -/

@[simp] theorem setMem_v (m : Memory) : (setMem m s).v = s.v := rfl
@[simp] theorem setMem_index (m : Memory) : (setMem m s).index = s.index := rfl
@[simp] theorem setMem_pc (m : Memory) : (setMem m s).pc = s.pc := rfl
@[simp] theorem setMem_stack (m : Memory) : (setMem m s).stack = s.stack := rfl
@[simp] theorem setMem_sp (m : Memory) : (setMem m s).sp = s.sp := rfl
@[simp] theorem setMem_dt (m : Memory) : (setMem m s).dt = s.dt := rfl
@[simp] theorem setMem_st (m : Memory) : (setMem m s).st = s.st := rfl
@[simp] theorem setMem_mem (m : Memory) : (setMem m s).mem = m := rfl
@[simp] theorem setMem_fb (m : Memory) : (setMem m s).fb = s.fb := rfl
@[simp] theorem setMem_key (m : Memory) : (setMem m s).key = s.key := rfl
@[simp] theorem setMem_halt (m : Memory) : (setMem m s).halt = s.halt := rfl
@[simp] theorem setMem_haltPc (m : Memory) : (setMem m s).haltPc = s.haltPc := rfl
@[simp] theorem setMem_haltInfo (m : Memory) : (setMem m s).haltInfo = s.haltInfo := rfl
@[simp] theorem setMem_unk (m : Memory) : (setMem m s).unk = s.unk := rfl
@[simp] theorem setMem_reports (m : Memory) : (setMem m s).reports = s.reports := rfl
@[simp] theorem setMem_schedule (m : Memory) : (setMem m s).schedule = s.schedule := rfl
@[simp] theorem setMem_draws (m : Memory) : (setMem m s).draws = s.draws := rfl
@[simp] theorem setMem_drawCount (m : Memory) : (setMem m s).drawCount = s.drawCount := rfl

/-! ## setFb -/

@[simp] theorem setFb_v (f : Frame) : (setFb f s).v = s.v := rfl
@[simp] theorem setFb_index (f : Frame) : (setFb f s).index = s.index := rfl
@[simp] theorem setFb_pc (f : Frame) : (setFb f s).pc = s.pc := rfl
@[simp] theorem setFb_stack (f : Frame) : (setFb f s).stack = s.stack := rfl
@[simp] theorem setFb_sp (f : Frame) : (setFb f s).sp = s.sp := rfl
@[simp] theorem setFb_dt (f : Frame) : (setFb f s).dt = s.dt := rfl
@[simp] theorem setFb_st (f : Frame) : (setFb f s).st = s.st := rfl
@[simp] theorem setFb_mem (f : Frame) : (setFb f s).mem = s.mem := rfl
@[simp] theorem setFb_fb (f : Frame) : (setFb f s).fb = f := rfl
@[simp] theorem setFb_key (f : Frame) : (setFb f s).key = s.key := rfl
@[simp] theorem setFb_halt (f : Frame) : (setFb f s).halt = s.halt := rfl
@[simp] theorem setFb_haltPc (f : Frame) : (setFb f s).haltPc = s.haltPc := rfl
@[simp] theorem setFb_haltInfo (f : Frame) : (setFb f s).haltInfo = s.haltInfo := rfl
@[simp] theorem setFb_unk (f : Frame) : (setFb f s).unk = s.unk := rfl
@[simp] theorem setFb_reports (f : Frame) : (setFb f s).reports = s.reports := rfl
@[simp] theorem setFb_schedule (f : Frame) : (setFb f s).schedule = s.schedule := rfl
@[simp] theorem setFb_draws (f : Frame) : (setFb f s).draws = s.draws := rfl
@[simp] theorem setFb_drawCount (f : Frame) : (setFb f s).drawCount = s.drawCount := rfl

/-! ## setKey -/

@[simp] theorem setKey_v (k : Key) (d : Bool) : (setKey k d s).v = s.v := rfl
@[simp] theorem setKey_index (k : Key) (d : Bool) : (setKey k d s).index = s.index := rfl
@[simp] theorem setKey_pc (k : Key) (d : Bool) : (setKey k d s).pc = s.pc := rfl
@[simp] theorem setKey_stack (k : Key) (d : Bool) : (setKey k d s).stack = s.stack := rfl
@[simp] theorem setKey_sp (k : Key) (d : Bool) : (setKey k d s).sp = s.sp := rfl
@[simp] theorem setKey_dt (k : Key) (d : Bool) : (setKey k d s).dt = s.dt := rfl
@[simp] theorem setKey_st (k : Key) (d : Bool) : (setKey k d s).st = s.st := rfl
@[simp] theorem setKey_mem (k : Key) (d : Bool) : (setKey k d s).mem = s.mem := rfl
@[simp] theorem setKey_fb (k : Key) (d : Bool) : (setKey k d s).fb = s.fb := rfl
@[simp] theorem setKey_key (k : Key) (d : Bool) : (setKey k d s).key = s.key.set k d := rfl
@[simp] theorem setKey_halt (k : Key) (d : Bool) : (setKey k d s).halt = s.halt := rfl
@[simp] theorem setKey_haltPc (k : Key) (d : Bool) : (setKey k d s).haltPc = s.haltPc := rfl
@[simp] theorem setKey_haltInfo (k : Key) (d : Bool) : (setKey k d s).haltInfo = s.haltInfo := rfl
@[simp] theorem setKey_unk (k : Key) (d : Bool) : (setKey k d s).unk = s.unk := rfl
@[simp] theorem setKey_reports (k : Key) (d : Bool) : (setKey k d s).reports = s.reports := rfl
@[simp] theorem setKey_schedule (k : Key) (d : Bool) : (setKey k d s).schedule = s.schedule := rfl
@[simp] theorem setKey_draws (k : Key) (d : Bool) : (setKey k d s).draws = s.draws := rfl
@[simp] theorem setKey_drawCount (k : Key) (d : Bool) : (setKey k d s).drawCount = s.drawCount := rfl

/-! ## setLatches -/

@[simp] theorem setLatches_v (c : BitVec 3) (a i : Word) : (setLatches c a i s).v = s.v := rfl
@[simp] theorem setLatches_index (c : BitVec 3) (a i : Word) : (setLatches c a i s).index = s.index := rfl
@[simp] theorem setLatches_pc (c : BitVec 3) (a i : Word) : (setLatches c a i s).pc = s.pc := rfl
@[simp] theorem setLatches_stack (c : BitVec 3) (a i : Word) : (setLatches c a i s).stack = s.stack := rfl
@[simp] theorem setLatches_sp (c : BitVec 3) (a i : Word) : (setLatches c a i s).sp = s.sp := rfl
@[simp] theorem setLatches_dt (c : BitVec 3) (a i : Word) : (setLatches c a i s).dt = s.dt := rfl
@[simp] theorem setLatches_st (c : BitVec 3) (a i : Word) : (setLatches c a i s).st = s.st := rfl
@[simp] theorem setLatches_mem (c : BitVec 3) (a i : Word) : (setLatches c a i s).mem = s.mem := rfl
@[simp] theorem setLatches_fb (c : BitVec 3) (a i : Word) : (setLatches c a i s).fb = s.fb := rfl
@[simp] theorem setLatches_key (c : BitVec 3) (a i : Word) : (setLatches c a i s).key = s.key := rfl
@[simp] theorem setLatches_halt (c : BitVec 3) (a i : Word) : (setLatches c a i s).halt = c := rfl
@[simp] theorem setLatches_haltPc (c : BitVec 3) (a i : Word) : (setLatches c a i s).haltPc = a := rfl
@[simp] theorem setLatches_haltInfo (c : BitVec 3) (a i : Word) : (setLatches c a i s).haltInfo = i := rfl
@[simp] theorem setLatches_unk (c : BitVec 3) (a i : Word) : (setLatches c a i s).unk = s.unk := rfl
@[simp] theorem setLatches_reports (c : BitVec 3) (a i : Word) : (setLatches c a i s).reports = s.reports := rfl
@[simp] theorem setLatches_schedule (c : BitVec 3) (a i : Word) : (setLatches c a i s).schedule = s.schedule := rfl
@[simp] theorem setLatches_draws (c : BitVec 3) (a i : Word) : (setLatches c a i s).draws = s.draws := rfl
@[simp] theorem setLatches_drawCount (c : BitVec 3) (a i : Word) : (setLatches c a i s).drawCount = s.drawCount := rfl

/-! ## addReport -/

@[simp] theorem addReport_v (r : Report) : (addReport r s).v = s.v := rfl
@[simp] theorem addReport_index (r : Report) : (addReport r s).index = s.index := rfl
@[simp] theorem addReport_pc (r : Report) : (addReport r s).pc = s.pc := rfl
@[simp] theorem addReport_stack (r : Report) : (addReport r s).stack = s.stack := rfl
@[simp] theorem addReport_sp (r : Report) : (addReport r s).sp = s.sp := rfl
@[simp] theorem addReport_dt (r : Report) : (addReport r s).dt = s.dt := rfl
@[simp] theorem addReport_st (r : Report) : (addReport r s).st = s.st := rfl
@[simp] theorem addReport_mem (r : Report) : (addReport r s).mem = s.mem := rfl
@[simp] theorem addReport_fb (r : Report) : (addReport r s).fb = s.fb := rfl
@[simp] theorem addReport_key (r : Report) : (addReport r s).key = s.key := rfl
@[simp] theorem addReport_halt (r : Report) : (addReport r s).halt = s.halt := rfl
@[simp] theorem addReport_haltPc (r : Report) : (addReport r s).haltPc = s.haltPc := rfl
@[simp] theorem addReport_haltInfo (r : Report) : (addReport r s).haltInfo = s.haltInfo := rfl
@[simp] theorem addReport_unk (r : Report) : (addReport r s).unk = true := rfl
@[simp] theorem addReport_reports (r : Report) : (addReport r s).reports = r :: s.reports := rfl
@[simp] theorem addReport_schedule (r : Report) : (addReport r s).schedule = s.schedule := rfl
@[simp] theorem addReport_draws (r : Report) : (addReport r s).draws = s.draws := rfl
@[simp] theorem addReport_drawCount (r : Report) : (addReport r s).drawCount = s.drawCount := rfl

/-! ## clearUnk -/

@[simp] theorem clearUnk_v : (clearUnk s).v = s.v := rfl
@[simp] theorem clearUnk_index : (clearUnk s).index = s.index := rfl
@[simp] theorem clearUnk_pc : (clearUnk s).pc = s.pc := rfl
@[simp] theorem clearUnk_stack : (clearUnk s).stack = s.stack := rfl
@[simp] theorem clearUnk_sp : (clearUnk s).sp = s.sp := rfl
@[simp] theorem clearUnk_dt : (clearUnk s).dt = s.dt := rfl
@[simp] theorem clearUnk_st : (clearUnk s).st = s.st := rfl
@[simp] theorem clearUnk_mem : (clearUnk s).mem = s.mem := rfl
@[simp] theorem clearUnk_fb : (clearUnk s).fb = s.fb := rfl
@[simp] theorem clearUnk_key : (clearUnk s).key = s.key := rfl
@[simp] theorem clearUnk_halt : (clearUnk s).halt = s.halt := rfl
@[simp] theorem clearUnk_haltPc : (clearUnk s).haltPc = s.haltPc := rfl
@[simp] theorem clearUnk_haltInfo : (clearUnk s).haltInfo = s.haltInfo := rfl
@[simp] theorem clearUnk_unk : (clearUnk s).unk = false := rfl
@[simp] theorem clearUnk_reports : (clearUnk s).reports = s.reports := rfl
@[simp] theorem clearUnk_schedule : (clearUnk s).schedule = s.schedule := rfl
@[simp] theorem clearUnk_draws : (clearUnk s).draws = s.draws := rfl
@[simp] theorem clearUnk_drawCount : (clearUnk s).drawCount = s.drawCount := rfl

/-! ## setSchedule -/

@[simp] theorem setSchedule_v (l : List EnvStep) : (setSchedule l s).v = s.v := rfl
@[simp] theorem setSchedule_index (l : List EnvStep) : (setSchedule l s).index = s.index := rfl
@[simp] theorem setSchedule_pc (l : List EnvStep) : (setSchedule l s).pc = s.pc := rfl
@[simp] theorem setSchedule_stack (l : List EnvStep) : (setSchedule l s).stack = s.stack := rfl
@[simp] theorem setSchedule_sp (l : List EnvStep) : (setSchedule l s).sp = s.sp := rfl
@[simp] theorem setSchedule_dt (l : List EnvStep) : (setSchedule l s).dt = s.dt := rfl
@[simp] theorem setSchedule_st (l : List EnvStep) : (setSchedule l s).st = s.st := rfl
@[simp] theorem setSchedule_mem (l : List EnvStep) : (setSchedule l s).mem = s.mem := rfl
@[simp] theorem setSchedule_fb (l : List EnvStep) : (setSchedule l s).fb = s.fb := rfl
@[simp] theorem setSchedule_key (l : List EnvStep) : (setSchedule l s).key = s.key := rfl
@[simp] theorem setSchedule_halt (l : List EnvStep) : (setSchedule l s).halt = s.halt := rfl
@[simp] theorem setSchedule_haltPc (l : List EnvStep) : (setSchedule l s).haltPc = s.haltPc := rfl
@[simp] theorem setSchedule_haltInfo (l : List EnvStep) : (setSchedule l s).haltInfo = s.haltInfo := rfl
@[simp] theorem setSchedule_unk (l : List EnvStep) : (setSchedule l s).unk = s.unk := rfl
@[simp] theorem setSchedule_reports (l : List EnvStep) : (setSchedule l s).reports = s.reports := rfl
@[simp] theorem setSchedule_schedule (l : List EnvStep) : (setSchedule l s).schedule = l := rfl
@[simp] theorem setSchedule_draws (l : List EnvStep) : (setSchedule l s).draws = s.draws := rfl
@[simp] theorem setSchedule_drawCount (l : List EnvStep) : (setSchedule l s).drawCount = s.drawCount := rfl

/-! ## setDraws -/

@[simp] theorem setDraws_v (l : List Byte) (n : Nat) : (setDraws l n s).v = s.v := rfl
@[simp] theorem setDraws_index (l : List Byte) (n : Nat) : (setDraws l n s).index = s.index := rfl
@[simp] theorem setDraws_pc (l : List Byte) (n : Nat) : (setDraws l n s).pc = s.pc := rfl
@[simp] theorem setDraws_stack (l : List Byte) (n : Nat) : (setDraws l n s).stack = s.stack := rfl
@[simp] theorem setDraws_sp (l : List Byte) (n : Nat) : (setDraws l n s).sp = s.sp := rfl
@[simp] theorem setDraws_dt (l : List Byte) (n : Nat) : (setDraws l n s).dt = s.dt := rfl
@[simp] theorem setDraws_st (l : List Byte) (n : Nat) : (setDraws l n s).st = s.st := rfl
@[simp] theorem setDraws_mem (l : List Byte) (n : Nat) : (setDraws l n s).mem = s.mem := rfl
@[simp] theorem setDraws_fb (l : List Byte) (n : Nat) : (setDraws l n s).fb = s.fb := rfl
@[simp] theorem setDraws_key (l : List Byte) (n : Nat) : (setDraws l n s).key = s.key := rfl
@[simp] theorem setDraws_halt (l : List Byte) (n : Nat) : (setDraws l n s).halt = s.halt := rfl
@[simp] theorem setDraws_haltPc (l : List Byte) (n : Nat) : (setDraws l n s).haltPc = s.haltPc := rfl
@[simp] theorem setDraws_haltInfo (l : List Byte) (n : Nat) : (setDraws l n s).haltInfo = s.haltInfo := rfl
@[simp] theorem setDraws_unk (l : List Byte) (n : Nat) : (setDraws l n s).unk = s.unk := rfl
@[simp] theorem setDraws_reports (l : List Byte) (n : Nat) : (setDraws l n s).reports = s.reports := rfl
@[simp] theorem setDraws_schedule (l : List Byte) (n : Nat) : (setDraws l n s).schedule = s.schedule := rfl
@[simp] theorem setDraws_draws (l : List Byte) (n : Nat) : (setDraws l n s).draws = l := rfl
@[simp] theorem setDraws_drawCount (l : List Byte) (n : Nat) : (setDraws l n s).drawCount = n := rfl

end Sys2Proof.Machine
end

