-- ==== Sys2Proof/Laws/Ops.lean ====
section
/-! SUPPORT. What each shared operation does, said once: the value it writes and, through `OnlyChanges`, everything it
leaves alone. -/

namespace Sys2Proof.Machine

/-! ## Frames -/

theorem Agree.rfl_ (p : Part) (s : State) : Agree p s s := by cases p <;> simp [Agree]

theorem OnlyChanges.refl (l : List Part) (s : State) : OnlyChanges l s s := fun p _ => Agree.rfl_ p s

theorem Agree.trans {p : Part} {s t u : State} (h : Agree p s t) (h' : Agree p t u) : Agree p s u := by
  cases p <;> simp_all [Agree]

theorem OnlyChanges.mono {l l' : List Part} {s t : State} (h : OnlyChanges l s t) (hs : ∀ p ∈ l, p ∈ l') :
    OnlyChanges l' s t := fun p hp => h p fun hl => hp (hs p hl)

theorem OnlyChanges.trans {l : List Part} {s t u : State} (h : OnlyChanges l s t) (h' : OnlyChanges l t u) :
    OnlyChanges l s u := fun p hp => (h p hp).trans (h' p hp)

/-! ## Registers -/

@[simp] theorem readReg_setReg (s : State) (x r : Reg) (b : Byte) :
    readReg (setReg x b s) r = if r = x then b else readReg s r := by
  simp [readReg, setReg, Vector.getElem_set, Fin.ext_iff, eq_comm]

theorem setReg_onlyChanges (s : State) (x : Reg) (b : Byte) : OnlyChanges [.v] s (setReg x b s) := by
  intro p hp; cases p <;> simp_all [Agree, setReg, readByte]

/-- A register file is known by its registers. -/
theorem v_ext {s t : State} (h : ∀ r, readReg t r = readReg s r) : t.v = s.v :=
  Vector.ext fun i hi => h ⟨i, hi⟩

/-- The result is in V[x] unless the flag overwrote it; the flag is in VF; nothing else changed (10_state.md R14). -/
theorem writeFlagged_spec (s : State) (x : Reg) (b f : Byte) :
    (∀ r, readReg (writeFlagged x b f s) r = if r = 15 then f else if r = x then b else readReg s r) ∧
      OnlyChanges [.v] s (writeFlagged x b f s) := by
  refine ⟨fun r => by simp [writeFlagged], ?_⟩
  exact (setReg_onlyChanges s x b).trans (setReg_onlyChanges _ 15 f)

/-- V[k] holds byte k of the run where there is one and its old value elsewhere (43_memory_index.md R95). -/
theorem writeRun_spec (s : State) (bs : List Byte) :
    (∀ r : Reg, readReg (writeRun bs s) r = (bs[r.val]?).getD (readReg s r)) ∧ OnlyChanges [.v] s (writeRun bs s) := by
  refine ⟨fun r => by simp [readReg, writeRun], ?_⟩
  intro p hp; cases p <;> simp_all [Agree, writeRun, readByte]

/-! ## The program counter -/

theorem setPc_onlyChanges (s : State) (w : Word) : OnlyChanges [.pc] s (setPc w s) := by
  intro p hp; cases p <;> simp_all [Agree, readByte]

@[simp] theorem advance_pc (s : State) : (advance s).pc = s.pc + 2 := rfl

theorem advance_onlyChanges (s : State) : OnlyChanges [.pc] s (advance s) := setPc_onlyChanges s _

/-- A skip adds 2 to pc when its condition holds and does nothing else (41_conditional_skip.md R69). -/
theorem skipIf_spec (s : State) (c : Bool) :
    (skipIf c s).pc = (if c = true then s.pc + 2 else s.pc) ∧ OnlyChanges [.pc] s (skipIf c s) := by
  cases c
  · exact ⟨rfl, OnlyChanges.refl _ s⟩
  · exact ⟨rfl, setPc_onlyChanges s _⟩

/-! ## The call stack -/

/-- What a push does: sp one further, the word in the slot it names, every other slot as before (10_state.md R19). -/
theorem push_spec (s : State) (w : Word) :
    (push w s).sp = s.sp + 1 ∧
      (∀ k : Fin 16, (push w s).stack[k] = if k = s.sp + 1 then w else s.stack[k]) ∧
      OnlyChanges [.sp, .stack] s (push w s) := by
  refine ⟨by simp [push], fun k => ?_, ?_⟩
  · simp [push, Vector.getElem_set, Fin.ext_iff, eq_comm]
  · intro p hp; cases p <;> simp_all [Agree, push, readByte]

/-- What a pop does: pc from the slot sp names, sp one back, no slot changed (10_state.md R19, R20). -/
theorem pop_spec (s : State) :
    (pop s).pc = s.stack[s.sp] ∧ (pop s).sp = s.sp - 1 ∧ OnlyChanges [.pc, .sp] s (pop s) := by
  refine ⟨by simp [pop], by simp [pop], ?_⟩
  intro p hp; cases p <;> simp_all [Agree, pop, readByte]

/-! ## Faults and reports -/

/-- Taking a fatal fault writes the three latches and nothing else (60_exceptions.md R111). -/
theorem raise_spec (f : FatalFault) (a info : Word) (s : State) :
    Halted (faultCode f) a info s (raise f a info s) := by
  refine ⟨rfl, rfl, rfl, ?_⟩
  intro p hp; cases p <;> simp_all [Agree, raise, readByte]

theorem raised_spec (f : FatalFault) (info : Word) (s : State) :
    ∃ t, raised f info s = .next t ∧ Halted (faultCode f) (s.pc - 2) info s t :=
  ⟨_, rfl, raise_spec f _ info s⟩

theorem faultCode_legal (f : FatalFault) : LegalHalt (faultCode f) ∧ faultCode f ≠ 0 := by
  cases f <;> decide

/-- A report sets UNK, is handed to the host, and does nothing else (60_exceptions.md R112). -/
theorem reportUnknown_spec (a w : Word) (s : State) :
    (reportUnknown a w s).unk = true ∧ (reportUnknown a w s).reports = ⟨a, w⟩ :: s.reports ∧
      OnlyChanges [.unk, .reports] s (reportUnknown a w s) := by
  refine ⟨rfl, rfl, ?_⟩
  intro p hp; cases p <;> simp_all [Agree, reportUnknown, readByte]

/-! ## Memory transfers -/

/-- A store at I either halts the machine or writes all its bytes (20_memory.md R39, R40). -/
theorem storeAtIndex_cases (bs : List Byte) (s : State) :
    (Config.memSize < dataAddr s + bs.length ∧ storeAtIndex bs s = raised .addressOutOfRange s.index s) ∨
      (dataAddr s + bs.length ≤ Config.memSize ∧
        storeAtIndex bs s = .next (setMem (Memory.writeBytes s.mem (dataAddr s) bs) s)) := by
  unfold storeAtIndex
  cases h : memWrite s.mem (dataAddr s) bs with
  | none => exact .inl ⟨memWrite_eq_none_iff.mp h, rfl⟩
  | some m =>
    obtain ⟨hr, rfl⟩ := memWrite_eq_some_iff.mp h
    exact .inr ⟨hr, rfl⟩

theorem setMem_onlyChanges (s : State) (m : Memory) : OnlyChanges [.mem] s (setMem m s) := by
  intro p hp; cases p <;> simp_all [Agree]

/-- What every address reads as after a store that fits. -/
theorem readByte_store {s : State} (hwf : Memory.wf s.mem = true) {a : Nat} {bs : List Byte}
    (h : a + bs.length ≤ Config.memSize) (x : Nat) :
    readByte (setMem (Memory.writeBytes s.mem a bs) s) x =
      if a ≤ x ∧ x < a + bs.length then bs[x - a]?.getD 0 else readByte s x :=
  Memory.read_writeBytes hwf h x

/-! ## Keys -/

theorem leastKeyDown_eq_none_iff (s : State) : leastKeyDown s = none ↔ ∀ k, keyDown s k = false := by
  simp [leastKeyDown, List.find?_eq_none]

theorem keyOfByte_eq_some_iff (b : Byte) (k : Key) : keyOfByte b = some k ↔ b.toNat = k.val := by
  unfold keyOfByte
  split
  · rw [Option.some.injEq, Fin.ext_iff]
  · have := k.isLt
    constructor
    · intro h; cases h
    · intro h; omega

theorem keyOfByte_eq_none_iff (b : Byte) : keyOfByte b = none ↔ 15 < b.toNat := by
  unfold keyOfByte
  split <;> simp <;> omega

/-! ## The step -/

/-- What a step is: an external step settles it, or a Cycle does, or an instruction executes (60_exceptions.md R123). -/
theorem cyclePhases_cases (s : State) :
    (s.halt ≠ 0 ∧ cyclePhases s = .settled s) ∨
    (s.halt = 0 ∧ fetchWord s = none ∧ cyclePhases s = .settled (raise .addressOutOfRange s.pc s.pc s)) ∨
    (∃ w g, s.halt = 0 ∧ fetchWord s = some w ∧ decodeWord w = .error g ∧
      cyclePhases s = .settled (reportUnknown s.pc w (advance s))) ∨
    (∃ w i, s.halt = 0 ∧ fetchWord s = some w ∧ decodeWord w = .ok i ∧ cyclePhases s = .execute i (advance s)) := by
  unfold cyclePhases
  by_cases h : s.halt = 0
  · rw [if_neg (not_not.mpr h)]
    cases hf : fetchWord s with
    | none => exact .inr (.inl ⟨h, rfl, rfl⟩)
    | some w =>
      cases hd : decodeWord w with
      | error g => exact .inr (.inr (.inl ⟨w, g, h, rfl, hd, by simp [hd]⟩))
      | ok i => exact .inr (.inr (.inr ⟨w, i, h, rfl, hd, by simp [hd]⟩))
  · exact .inl ⟨h, if_pos h⟩

/-- The state a Cycle acts on differs from the one it is taken in by its schedule alone. -/
theorem CycleStarts.onlyChanges {s c : State} (h : CycleStarts s c) : OnlyChanges [.schedule] s c := by
  obtain ⟨-, rfl⟩ | ⟨rest, -, rfl⟩ := h
  · exact OnlyChanges.refl _ _
  · intro p hp; cases p <;> simp_all [Agree, readByte]

/-- A step that is a Cycle, scheduled or not, is what its phases come to on the state it acts on. -/
theorem CycleStarts.step_eq {s c : State} (h : CycleStarts s c) :
    (∀ t, cyclePhases c = .settled t → step s = .next t) ∧
      (∀ i t, cyclePhases c = .execute i t → step s = exec i t) := by
  have hn : nextAction s = cyclePhases c := by
    obtain ⟨hs, rfl⟩ | ⟨rest, hs, rfl⟩ := h <;> simp only [nextAction, hs, envAction]
  exact ⟨fun t ht => by simp only [step, hn, ht], fun i t ht => by simp only [step, hn, ht]⟩

/-- A fetch answers exactly when both its bytes lie in memory, with the big-endian word (20_memory.md R36). -/
theorem fetchWord_eq_some_iff {s : State} {w : Word} :
    fetchWord s = some w ↔
      s.pc.toNat ≤ 4094 ∧ w = wordOfBytes (readByte s s.pc.toNat) (readByte s (s.pc.toNat + 1)) := by
  unfold fetchWord inRange
  split
  · rename_i h
    simp only [Config.instrBytes, Config.memSize, decide_eq_true_eq] at h
    rw [Option.some.injEq]
    exact ⟨fun e => ⟨by omega, e.symm⟩, fun e => e.2.symm⟩
  · rename_i h
    simp only [Config.instrBytes, Config.memSize, decide_eq_true_eq] at h
    exact ⟨fun e => (by cases e), fun e => (by omega)⟩

theorem fetchWord_eq_none_iff {s : State} : fetchWord s = none ↔ 4094 < s.pc.toNat := by
  unfold fetchWord inRange
  split <;> rename_i h <;> simp only [Config.instrBytes, Config.memSize, decide_eq_true_eq] at h
  · exact ⟨fun e => (by cases e), fun e => (by omega)⟩
  · exact ⟨fun _ => by omega, fun _ => rfl⟩

end Sys2Proof.Machine
end

