-- ==== Sys2Proof/Laws/PerInstr.lean ====
section
/-! SUPPORT. Facts of every instruction as syntax, one lemma per constructor. -/

namespace Sys2Proof

/-- An instruction's canonical word lies in its row of the opcode map: `w &&& mask = match` (30_encoding.md R57). -/
def Laws.EncodesRow.Statement (i : Instr) : Prop := encode i &&& (rowMatchMask i).2 = (rowMatchMask i).1

/-! ## Masks on the formats (R53): an operand field under a 0 of the mask vanishes, the rest stays. -/

theorem nibble_and_full (b : BitVec 4) : b &&& 0xF = b := BitVec.and_allOnes

theorem byte_and_full (b : BitVec 8) : b &&& 0xFF = b := BitVec.and_allOnes

theorem nibble_and_zero (b : BitVec 4) : b &&& 0 = 0 := BitVec.and_zero

theorem byte_and_zero (b : BitVec 8) : b &&& 0 = 0 := BitVec.and_zero

theorem addr_and_zero (b : BitVec 12) : b &&& 0 = 0 := BitVec.and_zero

theorem formatA_and_high (op : BitVec 4) (nnn : Addr) :
    formatA op nnn &&& 0xF000 = ((op ++ (0 : BitVec 12) : BitVec 16)) := by
  have h : (op ++ nnn) &&& ((0xF : BitVec 4) ++ (0 : BitVec 12)) = op ++ (0 : BitVec 12) := by
    simp only [BitVec.and_append, nibble_and_full, addr_and_zero]
  exact h

theorem formatXB_and_high (op : BitVec 4) (x : Reg) (nn : Byte) :
    formatXB op x nn &&& 0xF000 = ((op ++ (0 : BitVec 4) ++ (0 : BitVec 8) : BitVec 16)) := by
  have h : (op ++ regBits x ++ nn) &&& ((0xF : BitVec 4) ++ (0 : BitVec 4) ++ (0 : BitVec 8)) =
      op ++ (0 : BitVec 4) ++ (0 : BitVec 8) := by
    simp only [BitVec.and_append, nibble_and_full, nibble_and_zero, byte_and_zero]
  exact h

theorem formatXB_and_selector (op : BitVec 4) (x : Reg) (nn : Byte) :
    formatXB op x nn &&& 0xF0FF = ((op ++ (0 : BitVec 4) ++ nn : BitVec 16)) := by
  have h : (op ++ regBits x ++ nn) &&& ((0xF : BitVec 4) ++ (0 : BitVec 4) ++ (0xFF : BitVec 8)) =
      op ++ (0 : BitVec 4) ++ nn := by
    simp only [BitVec.and_append, nibble_and_full, byte_and_full, nibble_and_zero]
  exact h

theorem formatXYN_and_high (op : BitVec 4) (x y : Reg) (n : Nibble) :
    formatXYN op x y n &&& 0xF000 = ((op ++ (0 : BitVec 4) ++ (0 : BitVec 4) ++ (0 : BitVec 4) : BitVec 16)) := by
  have h : (op ++ regBits x ++ regBits y ++ n) &&&
      ((0xF : BitVec 4) ++ (0 : BitVec 4) ++ (0 : BitVec 4) ++ (0 : BitVec 4)) =
      op ++ (0 : BitVec 4) ++ (0 : BitVec 4) ++ (0 : BitVec 4) := by
    simp only [BitVec.and_append, nibble_and_full, nibble_and_zero]
  exact h

theorem formatXYN_and_selector (op : BitVec 4) (x y : Reg) (n : Nibble) :
    formatXYN op x y n &&& 0xF00F = ((op ++ (0 : BitVec 4) ++ (0 : BitVec 4) ++ n : BitVec 16)) := by
  have h : (op ++ regBits x ++ regBits y ++ n) &&&
      ((0xF : BitVec 4) ++ (0 : BitVec 4) ++ (0 : BitVec 4) ++ (0xF : BitVec 4)) =
      op ++ (0 : BitVec 4) ++ (0 : BitVec 4) ++ n := by
    simp only [BitVec.and_append, nibble_and_full, nibble_and_zero]
  exact h

/-! ## One lemma per constructor -/

theorem Laws.EncodesRow.cls : Laws.EncodesRow.Statement .cls := rfl

theorem Laws.EncodesRow.ret : Laws.EncodesRow.Statement .ret := rfl

theorem Laws.EncodesRow.jp (nnn : Addr) : Laws.EncodesRow.Statement (.jp nnn) := formatA_and_high 0x1 nnn

theorem Laws.EncodesRow.call (nnn : Addr) : Laws.EncodesRow.Statement (.call nnn) :=
  formatA_and_high 0x2 nnn

theorem Laws.EncodesRow.seByte (x : Reg) (nn : Byte) : Laws.EncodesRow.Statement (.seByte x nn) :=
  formatXB_and_high 0x3 x nn

theorem Laws.EncodesRow.sneByte (x : Reg) (nn : Byte) : Laws.EncodesRow.Statement (.sneByte x nn) :=
  formatXB_and_high 0x4 x nn

theorem Laws.EncodesRow.seReg (x y : Reg) : Laws.EncodesRow.Statement (.seReg x y) :=
  formatXYN_and_high 0x5 x y 0x0

theorem Laws.EncodesRow.ldByte (x : Reg) (nn : Byte) : Laws.EncodesRow.Statement (.ldByte x nn) :=
  formatXB_and_high 0x6 x nn

theorem Laws.EncodesRow.addByte (x : Reg) (nn : Byte) : Laws.EncodesRow.Statement (.addByte x nn) :=
  formatXB_and_high 0x7 x nn

theorem Laws.EncodesRow.ldReg (x y : Reg) : Laws.EncodesRow.Statement (.ldReg x y) :=
  formatXYN_and_selector 0x8 x y 0x0

theorem Laws.EncodesRow.orReg (x y : Reg) : Laws.EncodesRow.Statement (.orReg x y) :=
  formatXYN_and_selector 0x8 x y 0x1

theorem Laws.EncodesRow.andReg (x y : Reg) : Laws.EncodesRow.Statement (.andReg x y) :=
  formatXYN_and_selector 0x8 x y 0x2

theorem Laws.EncodesRow.xorReg (x y : Reg) : Laws.EncodesRow.Statement (.xorReg x y) :=
  formatXYN_and_selector 0x8 x y 0x3

theorem Laws.EncodesRow.addReg (x y : Reg) : Laws.EncodesRow.Statement (.addReg x y) :=
  formatXYN_and_selector 0x8 x y 0x4

theorem Laws.EncodesRow.subReg (x y : Reg) : Laws.EncodesRow.Statement (.subReg x y) :=
  formatXYN_and_selector 0x8 x y 0x5

theorem Laws.EncodesRow.shr (x : Reg) : Laws.EncodesRow.Statement (.shr x) :=
  formatXYN_and_selector 0x8 x 0 0x6

theorem Laws.EncodesRow.subnReg (x y : Reg) : Laws.EncodesRow.Statement (.subnReg x y) :=
  formatXYN_and_selector 0x8 x y 0x7

theorem Laws.EncodesRow.shl (x : Reg) : Laws.EncodesRow.Statement (.shl x) :=
  formatXYN_and_selector 0x8 x 0 0xE

theorem Laws.EncodesRow.sneReg (x y : Reg) : Laws.EncodesRow.Statement (.sneReg x y) :=
  formatXYN_and_high 0x9 x y 0x0

theorem Laws.EncodesRow.ldI (nnn : Addr) : Laws.EncodesRow.Statement (.ldI nnn) := formatA_and_high 0xA nnn

theorem Laws.EncodesRow.jpV0 (nnn : Addr) : Laws.EncodesRow.Statement (.jpV0 nnn) :=
  formatA_and_high 0xB nnn

theorem Laws.EncodesRow.rnd (x : Reg) (nn : Byte) : Laws.EncodesRow.Statement (.rnd x nn) :=
  formatXB_and_high 0xC x nn

theorem Laws.EncodesRow.drw (x y : Reg) (n : Nibble) : Laws.EncodesRow.Statement (.drw x y n) :=
  formatXYN_and_high 0xD x y n

theorem Laws.EncodesRow.skp (x : Reg) : Laws.EncodesRow.Statement (.skp x) :=
  formatXB_and_selector 0xE x 0x9E

theorem Laws.EncodesRow.sknp (x : Reg) : Laws.EncodesRow.Statement (.sknp x) :=
  formatXB_and_selector 0xE x 0xA1

theorem Laws.EncodesRow.ldVxDt (x : Reg) : Laws.EncodesRow.Statement (.ldVxDt x) :=
  formatXB_and_selector 0xF x 0x07

theorem Laws.EncodesRow.ldVxK (x : Reg) : Laws.EncodesRow.Statement (.ldVxK x) :=
  formatXB_and_selector 0xF x 0x0A

theorem Laws.EncodesRow.ldDtVx (x : Reg) : Laws.EncodesRow.Statement (.ldDtVx x) :=
  formatXB_and_selector 0xF x 0x15

theorem Laws.EncodesRow.ldStVx (x : Reg) : Laws.EncodesRow.Statement (.ldStVx x) :=
  formatXB_and_selector 0xF x 0x18

theorem Laws.EncodesRow.addIVx (x : Reg) : Laws.EncodesRow.Statement (.addIVx x) :=
  formatXB_and_selector 0xF x 0x1E

theorem Laws.EncodesRow.ldFVx (x : Reg) : Laws.EncodesRow.Statement (.ldFVx x) :=
  formatXB_and_selector 0xF x 0x29

theorem Laws.EncodesRow.ldBVx (x : Reg) : Laws.EncodesRow.Statement (.ldBVx x) :=
  formatXB_and_selector 0xF x 0x33

theorem Laws.EncodesRow.ldMemVx (x : Reg) : Laws.EncodesRow.Statement (.ldMemVx x) :=
  formatXB_and_selector 0xF x 0x55

theorem Laws.EncodesRow.ldVxMem (x : Reg) : Laws.EncodesRow.Statement (.ldVxMem x) :=
  formatXB_and_selector 0xF x 0x65

end Sys2Proof
end

