-- ==== Sys2Proof/Tests/Slice0.lean ====
section
/-! SUPPORT. Tests of the model on small states: ill-formed terms refused, one word per constructor read by the decoder,
one step of each instruction, and for every obligation with hypotheses a state that meets them. Expected values come
from spec/30_encoding.md and spec/95_test_vectors.md; the name of a vector stands in each comment. -/

namespace Sys2Proof.Tests

open Sys2Proof Sys2Proof.Machine

/-! ## Helpers -/

/-- The state after reset with some registers set. -/
def regs (l : List (Reg × Byte)) : State := l.foldl (fun s p => setReg p.1 p.2 s) State.reset

/-- I set. -/
def withI (w : Word) (s : State) : State := setIndex w s

/-- Bytes placed in memory. -/
def withBytes (a : Nat) (bs : List Byte) (s : State) : State := setMem (Memory.writeBytes s.mem a bs) s

/-- Keys held down. -/
def withKeys (ks : List Key) (s : State) : State := ks.foldl (fun s k => setKey k true s) s

/-- Steps scheduled. -/
def withSteps (l : List EnvStep) (s : State) : State := setSchedule l s

/-- One pixel lit. -/
def withPixel (x : Fin 64) (y : Fin 32) (s : State) : State := setFb (Frame.toggle s.fb (x, y)) s

/-- A state that a step ended in, or the state before it. -/
def settledOr (s : State) : Host.Outcome State Fault Refusal → State
  | .next t => t
  | .fault _ => s
  | .refused _ => s

/-- One step. -/
def stepped (s : State) : State := settledOr s (step s)

/-- One step with the word `w` placed where it is fetched. -/
def ran (w : Nat) (s : State) : State := stepped (s.withFetchWord 16 w)

/-- The pixel of a state. -/
def lit (s : State) (x : Fin 64) (y : Fin 32) : Bool := Frame.pixel s.fb x y

/-! ## Ill-formed terms are refused

An instruction whose operands are out of range cannot be written down, so the checks are of what the loader brings. -/

/-- The largest image fits (70_reset_and_hazards.md R136). -/
theorem test_image_of_3584_bytes_fits : imageWellFormed (List.replicate 3584 0) = true := by
  rw [imageWellFormed, List.length_replicate]; rfl

/-- One byte more does not (D23). -/
theorem test_image_of_3585_bytes_refused : imageWellFormed (List.replicate 3585 0) = false := by
  rw [imageWellFormed, List.length_replicate]; rfl

/-- The loader refuses it too. -/
theorem test_load_of_3585_bytes_refused : loadImage (List.replicate 3585 0) State.reset = none := by
  rw [loadImage, test_image_of_3585_bytes_refused]; rfl

/-- A glyph that ends at 0x200 fits in the reserved region (20_memory.md R43). -/
theorem test_font_up_to_0x200_fits : fontWellFormed 0x1FB [1, 2, 3, 4, 5] = true := by decide

/-- A glyph that runs past 0x200 does not. -/
theorem test_font_past_0x200_refused : fontWellFormed 0x1FC [1, 2, 3, 4, 5] = false := by decide

/-- Memory with addresses out of order is not in canonical form. -/
theorem test_memory_out_of_order_refused : Memory.wf [(0x300, 1), (0x2FF, 2)] = false := by decide

/-- Memory that lists a byte as what an unlisted one reads as is not in canonical form. -/
theorem test_memory_with_zero_entry_refused : Memory.wf [(0x300, 0)] = false := by decide

/-- Memory beyond 4095 is not in canonical form. -/
theorem test_memory_beyond_4095_refused : Memory.wf [(0x1000, 1)] = false := by decide

/-! ## Decoding: one word per constructor, written out from the encodings of R57 -/

theorem test_decode_cls : decodeWord 0x00E0 = .ok .cls := rfl
theorem test_decode_ret : decodeWord 0x00EE = .ok .ret := rfl
/-- 0001 then nnn. -/
theorem test_decode_jp : decodeWord 0b0001_0010_0000_0100 = .ok (.jp 0x204) := rfl
theorem test_decode_call : decodeWord 0b0010_1010_1011_1100 = .ok (.call 0xABC) := rfl
/-- 0011, x, nn. -/
theorem test_decode_seByte : decodeWord 0b0011_0011_0100_0010 = .ok (.seByte 3 0x42) := rfl
theorem test_decode_sneByte : decodeWord 0b0100_1101_0100_0011 = .ok (.sneByte 13 0x43) := rfl
/-- 0101, x, y, and a low nibble that decode ignores (R58). -/
theorem test_decode_seReg : decodeWord 0b0101_1010_1011_0111 = .ok (.seReg 10 11) := rfl
theorem test_decode_ldByte : decodeWord 0b0110_1010_0010_1011 = .ok (.ldByte 10 0x2B) := rfl
theorem test_decode_addByte : decodeWord 0b0111_0001_1111_0000 = .ok (.addByte 1 0xF0) := rfl
/-- 1000, x, y, selector. -/
theorem test_decode_ldReg : decodeWord 0b1000_0001_0010_0000 = .ok (.ldReg 1 2) := rfl
theorem test_decode_orReg : decodeWord 0b1000_0001_0010_0001 = .ok (.orReg 1 2) := rfl
theorem test_decode_andReg : decodeWord 0b1000_0001_0010_0010 = .ok (.andReg 1 2) := rfl
theorem test_decode_xorReg : decodeWord 0b1000_0001_0010_0011 = .ok (.xorReg 1 2) := rfl
theorem test_decode_addReg : decodeWord 0b1000_1111_0001_0100 = .ok (.addReg 15 1) := rfl
theorem test_decode_subReg : decodeWord 0b1000_0001_1111_0101 = .ok (.subReg 1 15) := rfl
/-- The Y field is ignored (R58). -/
theorem test_decode_shr : decodeWord 0b1000_0001_1111_0110 = .ok (.shr 1) := rfl
theorem test_decode_subnReg : decodeWord 0b1000_0001_0010_0111 = .ok (.subnReg 1 2) := rfl
theorem test_decode_shl : decodeWord 0b1000_0001_0010_1110 = .ok (.shl 1) := rfl
theorem test_decode_sneReg : decodeWord 0b1001_1010_1011_0111 = .ok (.sneReg 10 11) := rfl
theorem test_decode_ldI : decodeWord 0b1010_0010_0000_1110 = .ok (.ldI 0x20E) := rfl
theorem test_decode_jpV0 : decodeWord 0b1011_1111_0000_0000 = .ok (.jpV0 0xF00) := rfl
theorem test_decode_rnd : decodeWord 0b1100_0011_0000_1111 = .ok (.rnd 3 0x0F) := rfl
/-- 1101, x, y, n. -/
theorem test_decode_drw : decodeWord 0b1101_0000_0001_0010 = .ok (.drw 0 1 2) := rfl
theorem test_decode_skp : decodeWord 0b1110_0010_1001_1110 = .ok (.skp 2) := rfl
theorem test_decode_sknp : decodeWord 0b1110_0010_1010_0001 = .ok (.sknp 2) := rfl
theorem test_decode_ldVxDt : decodeWord 0b1111_0100_0000_0111 = .ok (.ldVxDt 4) := rfl
theorem test_decode_ldVxK : decodeWord 0b1111_0011_0000_1010 = .ok (.ldVxK 3) := rfl
theorem test_decode_ldDtVx : decodeWord 0b1111_0011_0001_0101 = .ok (.ldDtVx 3) := rfl
theorem test_decode_ldStVx : decodeWord 0b1111_0011_0001_1000 = .ok (.ldStVx 3) := rfl
theorem test_decode_addIVx : decodeWord 0b1111_0001_0001_1110 = .ok (.addIVx 1) := rfl
theorem test_decode_ldFVx : decodeWord 0b1111_0000_0010_1001 = .ok (.ldFVx 0) := rfl
theorem test_decode_ldBVx : decodeWord 0b1111_0000_0011_0011 = .ok (.ldBVx 0) := rfl
theorem test_decode_ldMemVx : decodeWord 0b1111_0010_0101_0101 = .ok (.ldMemVx 2) := rfl
theorem test_decode_ldVxMem : decodeWord 0b1111_0010_0110_0101 = .ok (.ldVxMem 2) := rfl

/-- UK1 to UK5. -/
theorem test_decode_unknown_group0 :
    decodeWord 0x0000 = .error .group0 ∧
    decodeWord 0x00E1 = .error .group0 ∧
    decodeWord 0x01E0 = .error .group0 ∧
    decodeWord 0x00F0 = .error .group0 ∧
    decodeWord 0x0FFF = .error .group0 :=
  ⟨rfl, rfl, rfl, rfl, rfl⟩

/-- UK6, UK7. -/
theorem test_decode_unknown_group8 :
    decodeWord 0x8008 = .error .group8 ∧
    decodeWord 0x812F = .error .group8 :=
  ⟨rfl, rfl⟩

/-- UK8 to UK10. -/
theorem test_decode_unknown_groupE :
    decodeWord 0xE000 = .error .groupE ∧
    decodeWord 0xE09F = .error .groupE ∧
    decodeWord 0xE11E = .error .groupE :=
  ⟨rfl, rfl, rfl⟩

/-- UK11 to UK14. -/
theorem test_decode_unknown_groupF :
    decodeWord 0xF000 = .error .groupF ∧
    decodeWord 0xF0FF = .error .groupF ∧
    decodeWord 0xF075 = .error .groupF ∧
    decodeWord 0xF105 = .error .groupF :=
  ⟨rfl, rfl, rfl, rfl⟩

/-- Bytes: the byte at the lower address comes first; one byte alone is no instruction. -/
theorem test_decode_bytes :
    decode [0x23, 0x00, 0x77] = .ok (.call 0x300, [0x77]) ∧ decode [0x23] = .error .truncated := ⟨rfl, rfl⟩

/-- The table's numbering of a row's bits. -/
theorem test_decode_table_word : decodeTableWord 16 0xD012 = some (.drw 0 1 2) ∧ decodeTableWord 16 0x8008 = none := by
  decide

/-! ## One step of each instruction -/

/-- CT1. -/
theorem test_jp : (ran 0x1204 State.reset).pc = 0x204 := by decide
/-- CT4: an odd target is legal. -/
theorem test_jp_odd : (ran 0x1203 State.reset).pc = 0x203 := by decide
/-- CT6: not reduced to 12 bits. -/
theorem test_jpV0_top : (ran 0xBFFF (regs [(0, 0xFF)])).pc = 0x10FE := by decide
/-- CT7: V2 plays no part. -/
theorem test_jpV0_register : (ran 0xB2F0 (regs [(2, 0x55)])).pc = 0x2F0 := by decide
/-- CT8. -/
theorem test_call :
    let t := ran 0x2300 State.reset
    t.pc = 0x300 ∧ t.sp = 1 ∧ t.stack[(1 : Fin 16)] = 0x202 ∧ t.stack[(0 : Fin 16)] = 0 := by decide
/-- CT11. -/
theorem test_call_overflow :
    let t := ran 0x2ABC (setSp 15 State.reset)
    t.halt = 2 ∧ t.haltPc = 0x200 ∧ t.haltInfo = 0xABC ∧ t.pc = 0x202 ∧ t.sp = 15 ∧ t.stack = State.reset.stack := by
  decide
/-- CT12. -/
theorem test_ret :
    let t := ran 0x00EE (setSlot 1 0xFFF (setSp 1 State.reset))
    t.pc = 0xFFF ∧ t.sp = 0 ∧ t.stack[(1 : Fin 16)] = 0xFFF := by decide
/-- CT10. -/
theorem test_ret_underflow :
    let t := ran 0x00EE State.reset
    t.halt = 3 ∧ t.haltPc = 0x200 ∧ t.haltInfo = 0 ∧ t.pc = 0x202 ∧ t.sp = 0 := by decide

/-- SK1. -/
theorem test_seByte_skips : (ran 0x3342 (regs [(3, 0x42)])).pc = 0x204 := by decide
/-- SK2. -/
theorem test_seByte_stays : (ran 0x3343 (regs [(3, 0x42)])).pc = 0x202 := by decide
/-- SK4. -/
theorem test_sneByte_skips : (ran 0x4343 (regs [(3, 0x42)])).pc = 0x204 := by decide
/-- SK3. -/
theorem test_sneByte_stays : (ran 0x4342 (regs [(3, 0x42)])).pc = 0x202 := by decide
/-- SK7. -/
theorem test_seReg_skips : (ran 0x5AB7 (regs [(10, 1), (11, 1)])).pc = 0x204 := by decide
/-- SK6. -/
theorem test_seReg_stays : (ran 0x5AB0 (regs [(10, 1), (11, 2)])).pc = 0x202 := by decide
/-- SK9. -/
theorem test_sneReg_skips : (ran 0x9AB0 (regs [(10, 1), (11, 2)])).pc = 0x204 := by decide
/-- SK10. -/
theorem test_sneReg_stays : (ran 0x9AB7 (regs [(10, 1), (11, 1)])).pc = 0x202 := by decide
/-- SK12, SK13. -/
theorem test_skp :
    (ran 0xE09E (withKeys [5] (regs [(0, 5)]))).pc = 0x204 ∧
    (ran 0xE09E (withKeys [6] (regs [(0, 5)]))).pc = 0x202 := by decide
/-- SK16. -/
theorem test_skp_halts :
    let t := ran 0xE09E (regs [(0, 0x10)])
    t.halt = 5 ∧ t.haltPc = 0x200 ∧ t.haltInfo = 0x10 ∧ t.pc = 0x202 := by decide
/-- SK14, SK15. -/
theorem test_sknp :
    (ran 0xE0A1 (regs [(0, 5)])).pc = 0x204 ∧ (ran 0xE0A1 (withKeys [5] (regs [(0, 5)]))).pc = 0x202 := by decide
/-- SK17. -/
theorem test_sknp_halts :
    let t := ran 0xE0A1 (regs [(0, 0xFF)])
    t.halt = 5 ∧ t.haltPc = 0x200 ∧ t.haltInfo = 0xFF ∧ t.pc = 0x202 := by decide

/-- S1. -/
theorem test_ldByte : readReg (ran 0x6FFF State.reset) 15 = 0xFF := by decide
/-- AL3. -/
theorem test_addByte_no_flag :
    let t := ran 0x71F0 (regs [(1, 0x10), (15, 1)])
    readReg t 1 = 0 ∧ readReg t 15 = 1 := by decide
/-- AL4. -/
theorem test_addByte_vf : readReg (ran 0x7F02 (regs [(15, 0xFF)])) 15 = 1 := by decide
/-- AL5. -/
theorem test_ldReg :
    let t := ran 0x8120 (regs [(2, 0x33)])
    readReg t 1 = 0x33 ∧ readReg t 2 = 0x33 := by decide
/-- AL6. -/
theorem test_orReg :
    let t := ran 0x8121 (regs [(1, 0xF0), (2, 0x0F), (15, 1)])
    readReg t 1 = 0xFF ∧ readReg t 15 = 1 := by decide
/-- AL7. -/
theorem test_andReg :
    let t := ran 0x8122 (regs [(1, 0xF0), (2, 0x3C), (15, 1)])
    readReg t 1 = 0x30 ∧ readReg t 15 = 1 := by decide
/-- AL8. -/
theorem test_xorReg :
    let t := ran 0x8123 (regs [(1, 0xF0), (2, 0x3C), (15, 1)])
    readReg t 1 = 0xCC ∧ readReg t 15 = 1 := by decide
/-- AL9. -/
theorem test_xorReg_self : readReg (ran 0x8113 (regs [(1, 0x5A)])) 1 = 0 := by decide
/-- AL13: 255 is no overflow. -/
theorem test_addReg :
    let t := ran 0x8124 (regs [(1, 0x80), (2, 0x7F), (15, 1)])
    readReg t 1 = 0xFF ∧ readReg t 15 = 0 := by decide
/-- AL16: the old VF is the operand. -/
theorem test_addReg_vf_operand :
    let t := ran 0x81F4 (regs [(1, 0x10), (15, 0xF5)])
    readReg t 1 = 5 ∧ readReg t 15 = 1 := by decide
/-- AL20. -/
theorem test_subReg :
    let t := ran 0x8125 (regs [(1, 3), (2, 5), (15, 1)])
    readReg t 1 = 0xFE ∧ readReg t 15 = 0 := by decide
/-- AL24: the difference 2 is replaced by the flag. -/
theorem test_subReg_vf : readReg (ran 0x8F15 (regs [(15, 5), (1, 3)])) 15 = 1 := by decide
/-- AL30. -/
theorem test_shr :
    let t := ran 0x8126 (regs [(1, 3), (2, 0xF0)])
    readReg t 1 = 1 ∧ readReg t 15 = 1 ∧ readReg t 2 = 0xF0 := by decide
/-- AL32. -/
theorem test_shr_vf : readReg (ran 0x8F06 (regs [(15, 2)])) 15 = 0 := by decide
/-- AL25. -/
theorem test_subnReg :
    let t := ran 0x8127 (regs [(1, 3), (2, 5)])
    readReg t 1 = 2 ∧ readReg t 15 = 1 := by decide
/-- AL27: equal operands. -/
theorem test_subnReg_equal :
    let t := ran 0x8127 (regs [(1, 7), (2, 7), (15, 1)])
    readReg t 1 = 0 ∧ readReg t 15 = 0 := by decide
/-- AL34. -/
theorem test_shl :
    let t := ran 0x810E (regs [(1, 0x41), (15, 1)])
    readReg t 1 = 0x82 ∧ readReg t 15 = 0 := by decide
/-- AL36. -/
theorem test_shl_vf : readReg (ran 0x8FFE (regs [(15, 0x81)])) 15 = 1 := by decide

/-- MI2. -/
theorem test_ldI : (ran 0xAFFF State.reset).index = 0xFFF := by decide
/-- MI4. -/
theorem test_addIVx :
    let t := ran 0xF11E (withI 0xFFF (regs [(1, 1)]))
    t.index = 0x1000 ∧ readReg t 15 = 0 := by decide
/-- MI5. -/
theorem test_addIVx_wraps : (ran 0xF11E (withI 0xFFFF (regs [(1, 2)]))).index = 1 := by decide
/-- MI6. -/
theorem test_ldFVx : (ran 0xF029 (regs [(0, 0x0A)])).index = 50 := by decide
/-- MI9: no masking. -/
theorem test_ldFVx_whole_byte : (ran 0xF029 (regs [(0, 0x1A)])).index = 130 := by decide
/-- MI16. -/
theorem test_ldBVx :
    let t := ran 0xF033 (withI 0xFFD (regs [(0, 234)]))
    readByte t 0xFFD = 2 ∧ readByte t 0xFFE = 3 ∧ readByte t 0xFFF = 4 ∧ t.index = 0xFFD := by decide
/-- MI17. -/
theorem test_ldBVx_beyond :
    let t := ran 0xF033 (withI 0xFFE (regs [(0, 255)]))
    t.halt = 4 ∧ t.haltPc = 0x200 ∧ t.haltInfo = 0xFFE ∧ t.pc = 0x202 ∧ readByte t 0xFFE = 0 := by decide
/-- MI18. -/
theorem test_ldMemVx :
    let t := ran 0xF255 (withI 0x300 (regs [(0, 0x11), (1, 0x22), (2, 0x33), (3, 0x44)]))
    readByte t 0x300 = 0x11 ∧ readByte t 0x301 = 0x22 ∧ readByte t 0x302 = 0x33 ∧ readByte t 0x303 = 0 ∧
      t.index = 0x300 := by decide
/-- MI27: the instruction overwrites itself. -/
theorem test_ldMemVx_self :
    let t := ran 0xF155 (withI 0x200 (regs [(0, 0x12), (1, 0x08)]))
    readByte t 0x200 = 0x12 ∧ readByte t 0x201 = 0x08 ∧ t.pc = 0x202 := by decide
/-- MI22. -/
theorem test_ldVxMem :
    let t := ran 0xF265 (withI 0x300 (withBytes 0x300 [0xAA, 0xBB, 0xCC, 0xDD] State.reset))
    readReg t 0 = 0xAA ∧ readReg t 1 = 0xBB ∧ readReg t 2 = 0xCC ∧ readReg t 3 = 0 ∧ t.index = 0x300 := by decide
/-- MI24. -/
theorem test_ldVxMem_beyond :
    let t := ran 0xF165 (withI 0xFFF (withBytes 0xFFF [0xAB] State.reset))
    t.halt = 4 ∧ t.haltInfo = 0xFFF ∧ t.pc = 0x202 ∧ readReg t 0 = 0 := by decide

/-- A state that has a byte ready for RND. -/
def withDraw (b : Byte) (s : State) : State := setDraws [b] 0 s

/-- RN1. -/
theorem test_rnd : readReg (ran 0xC30F (withDraw 0xB7 State.reset)) 3 = 0x07 := by decide
/-- RN4. -/
theorem test_rnd_vf : readReg (ran 0xCF80 (withDraw 0xFF (regs [(15, 1)]))) 15 = 0x80 := by decide

/-- DS4: across both edges. -/
theorem test_drw_wraps :
    let t := ran 0xD012 (withI 0x20E (withBytes 0x20E [0xC0, 0x81] (regs [(0, 63), (1, 31)])))
    lit t 63 31 = true ∧ lit t 0 31 = true ∧ lit t 63 0 = true ∧ lit t 6 0 = true ∧ lit t 0 0 = false ∧
      readReg t 15 = 0 := by decide
/-- DS10: one collision among several pixels. -/
theorem test_drw_collides :
    let t := ran 0xD011 (withI 0x300 (withBytes 0x300 [0xC0] (withPixel 0 0 State.reset)))
    lit t 0 0 = false ∧ lit t 1 0 = true ∧ readReg t 15 = 1 := by decide
/-- DS17. -/
theorem test_cls :
    let t := ran 0x00E0 (withPixel 63 31 (regs [(15, 1)]))
    t.fb = State.reset.fb ∧ readReg t 15 = 1 := by decide

/-- TM3. -/
theorem test_ldVxDt :
    let t := ran 0xF407 (setDt 0x2A State.reset)
    readReg t 4 = 0x2A ∧ t.dt = 0x2A := by decide
/-- TM9. -/
theorem test_ldDtVx : (ran 0xFF15 (regs [(15, 0x99)])).dt = 0x99 := by decide
/-- TM2. -/
theorem test_ldStVx :
    let t := ran 0xF318 (regs [(3, 0x3C)])
    t.st = 0x3C ∧ t.dt = 0 := by decide
/-- KW1. -/
theorem test_ldVxK_stalls : (ran 0xF30A State.reset).pc = 0x200 := by decide
/-- KW3: the least index. -/
theorem test_ldVxK_least :
    let t := ran 0xF30A (withKeys [9, 3] State.reset)
    readReg t 3 = 3 ∧ t.pc = 0x202 := by decide

/-! ## Other steps -/

/-- S9. -/
theorem test_unknown :
    let t := ran 0x0000 State.reset
    t.pc = 0x202 ∧ t.unk = true ∧ t.reports = [⟨0x200, 0⟩] ∧ t.halt = 0 := by decide
/-- FE4: pc is not advanced. -/
theorem test_fetch_beyond :
    let t := stepped (setPc 0xFFF State.reset)
    t.halt = 4 ∧ t.haltPc = 0xFFF ∧ t.haltInfo = 0xFFF ∧ t.pc = 0xFFF := by decide
/-- FE5: an odd pc is legal. -/
theorem test_fetch_odd :
    let t := stepped (setPc 0x201 (withBytes 0x200 [0x00, 0x61, 0x22] State.reset))
    readReg t 1 = 0x22 ∧ t.pc = 0x203 := by decide
/-- TM5: clamped at 0. -/
theorem test_tick :
    let t := stepped (withSteps [.timerTick] (setDt 5 State.reset))
    t.dt = 4 ∧ t.st = 0 ∧ t.pc = 0x200 := by decide
/-- FE7: on a halted machine. -/
theorem test_key_event_while_halted :
    let t := stepped (withSteps [.keyEvent 3 true] (setLatches 2 0 0 State.reset))
    keyDown t 3 = true ∧ t.halt = 2 := by decide
/-- FE8. -/
theorem test_initialize_step :
    let t := stepped (withSteps [.initializeProcessor] (setLatches 3 0x200 0 (withKeys [1] (regs [(4, 9)]))))
    t.halt = 0 ∧ t.haltPc = 0 ∧ readReg t 4 = 0 ∧ keyDown t 1 = true := by decide

/-! ## Witnesses: for each obligation with hypotheses, a state and operands that meet them together -/

/-- A state at whose pc an instruction stands. -/
def at0x200 (hi lo : Byte) (s : State) : State := withBytes 0x200 [hi, lo] s

theorem test_witness_EncodeOfDecodeKeepsUsedBits : decodeWord 0x812E = .ok (.shl 1) := rfl

/-- Nothing scheduled, and a Cycle scheduled with a tick after it. -/
theorem test_witness_StepRunsTheDecodedInstruction :
    let s := at0x200 0x6A 0x7F State.reset
    let s' := withSteps [.cycle, .timerTick] s
    (s.halt = 0 ∧ s.pc.toNat ≤ 4094 ∧ s.schedule = [] ∧
      decode [readByte s s.pc.toNat, readByte s (s.pc.toNat + 1)] = .ok (.ldByte 10 0x7F, [])) ∧
    (s'.halt = 0 ∧ s'.pc.toNat ≤ 4094 ∧ s'.schedule = .cycle :: [.timerTick] ∧
      decode [readByte s' s'.pc.toNat, readByte s' (s'.pc.toNat + 1)] = .ok (.ldByte 10 0x7F, [])) :=
  ⟨⟨by decide, by decide, rfl, rfl⟩, by decide, by decide, rfl, rfl⟩

/-- The last whole word of memory. -/
theorem test_witness_FetchIsBigEndian : (setPc 0xFFE State.reset).pc.toNat ≤ 4094 := by decide

/-- A Cycle with nothing scheduled, and one scheduled with a tick after it. -/
theorem test_witness_HaltedCycleChangesNothing :
    let s := setLatches 2 0x200 0x200 State.reset
    (CycleStarts s s ∧ s.halt ≠ 0) ∧
      CycleStarts (withSteps [.cycle, .timerTick] s) (withSteps [.timerTick] s) ∧
        (withSteps [.cycle, .timerTick] s).halt ≠ 0 :=
  ⟨⟨.inl ⟨rfl, rfl⟩, by decide⟩, .inr ⟨_, rfl, rfl⟩, by decide⟩

/-- The first pc whose word does not fit, with nothing scheduled and with a Cycle scheduled. -/
theorem test_witness_FetchBeyondMemoryHalts :
    let s := setPc 0xFFF State.reset
    (CycleStarts s s ∧ s.halt = 0 ∧ 4094 < s.pc.toNat) ∧
      CycleStarts (withSteps [.cycle, .timerTick] s) (withSteps [.timerTick] s) ∧
        (withSteps [.cycle, .timerTick] s).halt = 0 ∧ 4094 < (withSteps [.cycle, .timerTick] s).pc.toNat :=
  ⟨⟨.inl ⟨rfl, rfl⟩, by decide⟩, .inr ⟨_, rfl, rfl⟩, by decide⟩

/-- With nothing scheduled and with a Cycle scheduled. -/
theorem test_witness_UnknownWordIsAReportedNoOp :
    let s := at0x200 0x80 0x08 State.reset
    let s' := withSteps [.cycle, .timerTick] s
    (CycleStarts s s ∧ s.halt = 0 ∧ WordAtPc s 0x8008) ∧
      (CycleStarts s' (withSteps [.timerTick] s) ∧ s'.halt = 0 ∧ WordAtPc s' 0x8008) ∧
        decodeWord 0x8008 = .error .group8 :=
  ⟨⟨.inl ⟨rfl, rfl⟩, by decide⟩, ⟨.inr ⟨_, rfl, rfl⟩, by decide⟩, rfl⟩

theorem test_witness_EveryStepKeepsInv :
    let s := at0x200 0x23 0x00 State.reset
    Inv s ∧ ∃ t, step s = .next t ∧ t.sp = 1 := ⟨by decide, _, rfl, by decide⟩

theorem test_witness_InvHoldsAtLaunch : Memory.wf [(0x200, 0x12), (0xFFF, 0x01)] = true := by decide

theorem test_witness_TimerTickCountsBothTimersDown :
    (withSteps [.timerTick] (setDt 1 State.reset)).schedule = .timerTick :: [] := rfl

theorem test_witness_KeyEventSetsOneKey :
    (withSteps [.keyEvent 15 true] State.reset).schedule = .keyEvent 15 true :: [] := rfl

theorem test_witness_FrameReadChangesNothing :
    (withSteps [.frameRead] State.reset).schedule = .frameRead :: [] := rfl

theorem test_witness_InitializeResetsTheProcessor :
    (withSteps [.initializeProcessor, .cycle] (setLatches 4 0xFFF 0xFFF State.reset)).schedule =
      .initializeProcessor :: [.cycle] := rfl

/-- The longest image, and a font block that ends at 0x200. -/
theorem test_witness_LoaderPlacesBytesVerbatim :
    Memory.wf State.reset.mem = true ∧ (List.replicate 3584 (1 : Byte)).length ≤ 3584 ∧
      0x1FB + [1, 2, 3, 4, (5 : Byte)].length ≤ 0x200 := ⟨by decide, by rw [List.length_replicate], by decide⟩

/-- One slot left. -/
theorem test_witness_CallPushesAndJumps : (setSp 14 State.reset).sp.val < 15 := by decide

theorem test_witness_CallAtDepth15Overflows : (setSp 15 State.reset).sp.val = 15 := by decide

theorem test_witness_RetPops : (setSp 1 State.reset).sp.val ≠ 0 := by decide

theorem test_witness_RetOnEmptyStackUnderflows : State.reset.sp.val = 0 := by decide

/-- Fifteen calls from an empty stack. -/
theorem test_witness_NestedCallsAndReturnsRestore :
    let targets : List Addr := List.replicate 15 0x300
    targets ≠ [] ∧ State.reset.halt = 0 ∧ State.reset.sp.val + targets.length ≤ 15 := by decide

/-- The largest value that names a key. -/
theorem test_witness_KeySkips : (readReg (regs [(2, 15)]) 2).toNat = (15 : Key).val := by decide

/-- The smallest value that names none. -/
theorem test_witness_KeyIndexAbove15Halts : 15 < (readReg (regs [(2, 16)]) 2).toNat := by decide

/-- The destination is not VF. -/
theorem test_witness_flag_destinations : (1 : Reg) ≠ 15 ∧ (2 : Reg) ≠ 1 ∧ (2 : Reg) ≠ 15 := by decide

theorem test_witness_LdBStoresDecimalDigits :
    let s := withI 4093 (regs [(0, 255)])
    Memory.wf s.mem = true ∧ dataAddr s + 3 ≤ 4096 := by decide

theorem test_witness_BlockStoreWritesV0ToVx :
    let s := withI 0xFF0 (regs [(0, 255)])
    Memory.wf s.mem = true ∧ dataAddr s + (15 : Reg).val ≤ 4095 := by decide

theorem test_witness_BlockLoadReadsV0ToVx : dataAddr (withI 0xFF0 State.reset) + (15 : Reg).val ≤ 4095 := by decide

/-- Each clause at the first I that is too high: the three digits, a run of 16, and a sprite of two rows. -/
theorem test_witness_TransfersBeyondMemoryHalt :
    4096 < dataAddr (withI 0xFFE State.reset) + 3 ∧
    4095 < dataAddr (withI 0xFF1 State.reset) + (15 : Reg).val ∧
    4096 < dataAddr (withI 0xFFF State.reset) + (2 : Nibble).toNat ∧
    4096 < dataAddr (withI 0x1001 State.reset) + (0 : Nibble).toNat := by decide

theorem test_witness_StoredWordIsFetchedNext :
    let s := withI 0xFFE (regs [(0, 0x6A), (1, 0x55)])
    Memory.wf s.mem = true ∧ 1 ≤ (1 : Reg).val ∧ dataAddr s + (1 : Reg).val ≤ 4095 := by decide

/-- A byte ready, and none ready. -/
theorem test_witness_RndMasksOneDraw :
    (withDraw 0xB7 State.reset).draws = 0xB7 :: [] ∧ State.reset.draws = [] := ⟨rfl, rfl⟩

/-- A sprite that ends with the last byte of memory. -/
theorem test_witness_DrwTurnsOverTheSpritesPixels :
    dataAddr (withI 0xFFE State.reset) + (2 : Nibble).toNat ≤ 4096 := by decide

/-- A covered pixel that is lit; on a clear screen there is none. -/
theorem test_witness_collision :
    let s := withI 0x300 (withBytes 0x300 [0x80] (withPixel 0 0 State.reset))
    (SpriteCovers s 0 0 1 0 0 ∧ Frame.pixel s.fb 0 0 = true) ∧
      ∀ px py, Frame.pixel State.reset.fb px py = false := by
  refine ⟨⟨⟨0, 0, by decide⟩, by decide⟩, fun px py => ?_⟩
  simp [State.reset, Frame.pixel]

theorem test_witness_DrawingTwiceRestoresTheFrame :
    (0 : Reg) ≠ 15 ∧ (1 : Reg) ≠ 15 ∧ dataAddr (withI 0xFFE State.reset) + (2 : Nibble).toNat ≤ 4096 := by decide

/-- No key down, and the least key the last one. -/
theorem test_witness_KeyWaitRetriesOrStoresTheLeastKey :
    (∀ k, keyDown State.reset k = false) ∧
      keyDown (withKeys [15] State.reset) 15 = true ∧
      ∀ j, j < (15 : Key) → keyDown (withKeys [15] State.reset) j = false := by decide

/-- With nothing scheduled and with a Cycle scheduled. -/
theorem test_witness_StalledCycleIsAFixedPoint :
    let s := at0x200 0xF3 0x0A State.reset
    let s' := withSteps [.cycle, .keyEvent 3 true] s
    (CycleStarts s s ∧ s.halt = 0 ∧ WordAtPc s (BitVec.ofNat 16 (0xF00A + 0x100 * (3 : Reg).val)) ∧
      ∀ k, keyDown s k = false) ∧
    (CycleStarts s' (withSteps [.keyEvent 3 true] s) ∧ s'.halt = 0 ∧
      WordAtPc s' (BitVec.ofNat 16 (0xF00A + 0x100 * (3 : Reg).val)) ∧ ∀ k, keyDown s' k = false) :=
  ⟨⟨.inl ⟨rfl, rfl⟩, by decide⟩, .inr ⟨_, rfl, rfl⟩, by decide⟩

/-- Each clause: an instruction that changes FB, memory, the stack and sp, I, DT, ST, the draws, the latches. -/
theorem test_witness_EachPieceHasOnlyItsWriters :
    (∃ t, exec .cls (withPixel 0 0 State.reset) = .next t ∧ t.fb ≠ (withPixel 0 0 State.reset).fb) ∧
    (∃ t, exec (.ldMemVx 0) (regs [(0, 1)]) = .next t ∧ readByte t 0 ≠ readByte (regs [(0, 1)]) 0) ∧
    (∃ t, exec (.call 0x300) State.reset = .next t ∧ t.stack ≠ State.reset.stack ∧ t.sp ≠ State.reset.sp) ∧
    (∃ t, exec (.ldI 1) State.reset = .next t ∧ t.index ≠ State.reset.index) ∧
    (∃ t, exec (.ldDtVx 0) (regs [(0, 1)]) = .next t ∧ t.dt ≠ (regs [(0, 1)]).dt) ∧
    (∃ t, exec (.ldStVx 0) (regs [(0, 1)]) = .next t ∧ t.st ≠ (regs [(0, 1)]).st) ∧
    (∃ t, exec (.rnd 0 0) State.reset = .next t ∧ t.drawCount ≠ State.reset.drawCount) ∧
    (∃ t, exec .ret State.reset = .next t ∧ t.halt ≠ State.reset.halt) :=
  ⟨⟨_, rfl, by decide⟩, ⟨_, rfl, by decide⟩, ⟨_, rfl, by decide⟩, ⟨_, rfl, by decide⟩, ⟨_, rfl, by decide⟩, ⟨_, rfl, by decide⟩,
    ⟨_, rfl, by decide⟩, ⟨_, rfl, by decide⟩⟩

/-- Each clause: a jump, the three kinds of skip, the key wait. -/
theorem test_witness_PcAfterEveryInstruction :
    (∃ t, exec (.jp 0x300) State.reset = .next t ∧ t.pc ≠ State.reset.pc) ∧
    (∃ t, exec (.seByte 0 0) State.reset = .next t ∧ t.pc ≠ State.reset.pc) ∧
    (∃ t, exec (.seReg 0 0) State.reset = .next t ∧ t.pc ≠ State.reset.pc) ∧
    (∃ t, exec (.sknp 0) State.reset = .next t ∧ t.pc ≠ State.reset.pc) ∧
    (∃ t, exec (.ldVxK 0) State.reset = .next t ∧ t.pc ≠ State.reset.pc) :=
  ⟨⟨_, rfl, by decide⟩, ⟨_, rfl, by decide⟩, ⟨_, rfl, by decide⟩, ⟨_, rfl, by decide⟩, ⟨_, rfl, by decide⟩⟩

/-- Each clause: a flag writer, the immediate and register forms with VF as destination, DT, the key wait, the load. -/
theorem test_witness_VfIsWrittenOnlyAsFlagOrDestination :
    (∃ t, exec (.shr 1) (regs [(1, 3)]) = .next t ∧ readReg t 15 ≠ readReg (regs [(1, 3)]) 15) ∧
    (∃ t, exec (.ldByte 15 7) State.reset = .next t ∧ readReg t 15 ≠ readReg State.reset 15) ∧
    (∃ t, exec (.ldReg 15 1) (regs [(1, 3)]) = .next t ∧ readReg t 15 ≠ readReg (regs [(1, 3)]) 15) ∧
    (∃ t, exec (.ldVxDt 15) (setDt 2 State.reset) = .next t ∧ readReg t 15 ≠ readReg (setDt 2 State.reset) 15) ∧
    (∃ t, exec (.ldVxK 15) (withKeys [15] State.reset) = .next t ∧
      readReg t 15 ≠ readReg (withKeys [15] State.reset) 15) ∧
    (∃ t, exec (.ldVxMem 15) (withBytes 15 [9] State.reset) = .next t ∧
      readReg t 15 ≠ readReg (withBytes 15 [9] State.reset) 15) :=
  ⟨⟨_, rfl, by decide⟩, ⟨_, rfl, by decide⟩, ⟨_, rfl, by decide⟩, ⟨_, rfl, by decide⟩, ⟨_, rfl, by decide⟩,
    ⟨_, rfl, by decide⟩⟩

/-- Both clauses: LD Vx, DT and LD ST, Vx. -/
theorem test_witness_NoInstructionReadsTheSoundTimer :
    (∃ t, exec (.ldVxDt 1) (setDt 7 State.reset) = .next t) ∧ (∀ x, Instr.ldVxDt 1 ≠ .ldStVx x) ∧
      ∃ t, exec (.ldStVx 3) (regs [(3, 0x3C)]) = .next t ∧ t.st = 0x3C :=
  ⟨⟨_, rfl⟩, by decide, _, rfl, by decide⟩

/-- Each clause: KEY by a KeyEvent, FB and pc by a Cycle, DT by a tick and by LD DT, ST by a tick and by LD ST. -/
theorem test_witness_OnlyTheNamedStepsReachDevices :
    (∃ t, step (withSteps [.keyEvent 0 true] State.reset) = .next t ∧ t.key ≠ State.reset.key) ∧
    (∃ t, step (at0x200 0x00 0xE0 (withPixel 0 0 State.reset)) = .next t ∧
      t.fb ≠ (withPixel 0 0 State.reset).fb ∧ t.pc ≠ 0x200) ∧
    (∃ t, step (withSteps [.timerTick] (setSt 1 (setDt 1 State.reset))) = .next t ∧ t.dt ≠ 1 ∧ t.st ≠ 1) ∧
    (∃ t, step (at0x200 0xF0 0x15 (regs [(0, 1)])) = .next t ∧ t.dt ≠ 0) ∧
    (∃ t, step (at0x200 0xF0 0x18 (regs [(0, 1)])) = .next t ∧ t.st ≠ 0) :=
  ⟨⟨_, rfl, by decide⟩, ⟨_, rfl, by decide⟩, ⟨_, rfl, by decide⟩, ⟨_, rfl, by decide⟩, ⟨_, rfl, by decide⟩⟩

/-- A halted machine, and one that has reported an unknown word, each at a Cycle. -/
theorem test_witness_OnlyInitializeLeavesTheHaltedState :
    let s := setLatches 2 0x200 0 (addReport ⟨0x200, 0⟩ State.reset)
    (∃ t, step s = .next t) ∧ (∀ rest, s.schedule ≠ .initializeProcessor :: rest) ∧ s.halt ≠ 0 ∧ s.unk = true :=
  ⟨⟨_, rfl⟩, fun rest => by simp [State.reset, setLatches, addReport], by decide, by decide⟩

/-- CT2: a jump to itself at 0x200, with nothing scheduled and with a Cycle scheduled. -/
theorem test_witness_FinishedProgramIsAFixedPoint :
    let s := at0x200 0x12 0x00 State.reset
    let s' := withSteps [.cycle, .timerTick] s
    (CycleStarts s s ∧ Finished s) ∧ CycleStarts s' (withSteps [.timerTick] s) ∧ Finished s' :=
  ⟨⟨.inl ⟨rfl, rfl⟩, by decide⟩, .inr ⟨_, rfl, rfl⟩, by decide⟩

end Sys2Proof.Tests
end

section
/-! PROOF. The word a fetch sees: its fields (20_memory.md R36), and a word that LD [I], Vx stored (R47). -/

namespace Sys2Proof.Machine

@[simp] theorem readByte_setPc (w : Word) (s : State) (a : Nat) : readByte (setPc w s) a = readByte s a := rfl

/-! ## The run of registers a block store writes (43_memory_index.md R94) -/

@[simp] theorem length_regRun (x : Reg) (s : State) : (regRun x s).length = x.val + 1 := by
  simp [regRun]

theorem getElem?_regRun {x r : Reg} (h : r ≤ x) (s : State) : (regRun x s)[r.val]? = some (readReg s r) := by
  have hlt : r.val < x.val + 1 := Nat.lt_succ_of_le h
  simp [regRun, readReg, hlt]

/-- LD [I], Vx where the run lies inside memory. -/
theorem exec_ldMemVx_of_fits {x : Reg} {s : State} (h : dataAddr s + x.val ≤ 4095) :
    exec (.ldMemVx x) s = .next (setMem (Memory.writeBytes s.mem (dataAddr s) (regRun x s)) s) := by
  obtain ⟨hout, -⟩ | ⟨-, hstore⟩ := storeAtIndex_cases (regRun x s) s
  · simp only [length_regRun, Config.memSize] at hout
    omega
  · exact hstore

/-- After the run is stored, the byte at I + r is V[r] for every r up to x. -/
theorem readByte_stored_regRun {x r : Reg} {s : State} (hwf : Memory.wf s.mem = true)
    (h : dataAddr s + x.val ≤ 4095) (hr : r ≤ x) :
    readByte (setMem (Memory.writeBytes s.mem (dataAddr s) (regRun x s)) s) (dataAddr s + r.val) = readReg s r := by
  have hlen := length_regRun x s
  have hle : r.val ≤ x.val := hr
  have hfits : dataAddr s + (regRun x s).length ≤ Config.memSize := by
    simp only [hlen, Config.memSize]
    omega
  rw [readByte_store hwf hfits, if_pos ⟨by omega, by omega⟩, Nat.add_sub_cancel_left, getElem?_regRun hr,
    Option.getD_some]

/-! ## The statements -/

/-- Settles O7: `fetchWord` answers the word of the two bytes at pc, and each field is a quotient or a remainder of
that word's number, 256 times the high byte plus the low one. -/
theorem fetchIsBigEndian : Obligations.FetchIsBigEndian := by
  intro s hpc
  generalize hhi : readByte s s.pc.toNat = hi
  generalize hlo : readByte s (s.pc.toNat + 1) = lo
  obtain ⟨w, hfetch, hw⟩ : ∃ w, fetchWord s = some w ∧ w.toNat = 256 * hi.toNat + lo.toNat :=
    ⟨_, fetchWord_eq_some_iff.mpr ⟨hpc, by rw [hhi, hlo]⟩, wordOfBytes_toNat hi lo⟩
  have hhi256 : hi.toNat < 256 := hi.isLt
  have hlo256 : lo.toNat < 256 := lo.isLt
  refine ⟨w, hfetch, hw, ?op, ?x, ?y, ?n, nnField_eq ?nn, ?nnn⟩
  case op => rw [opField_toNat]; omega
  case x => rw [xField_val]; omega
  case y => rw [yField_val]; omega
  case n => rw [nField_toNat]; omega
  case nn => omega
  case nnn => rw [nnnField_toNat]; omega

/-- Settles O45: the two bytes a fetch from I reads are the bytes for r = 0 and r = 1 of the stored run, which has
both because x is at least 1. -/
theorem storedWordIsFetchedNext : Obligations.StoredWordIsFetchedNext := by
  intro x s hwf hx hfit
  obtain ⟨t, hexec, hrun⟩ :
      ∃ t, exec (.ldMemVx x) s = .next t ∧ ∀ r : Reg, r ≤ x → readByte t (dataAddr s + r.val) = readReg s r :=
    ⟨_, exec_ldMemVx_of_fits hfit, fun _ => readByte_stored_regRun hwf hfit⟩
  have hV0 : readByte t s.index.toNat = readReg s 0 := hrun 0 (Fin.zero_le x)
  have hV1 : readByte t (s.index.toNat + 1) = readReg s 1 := hrun 1 hx
  have hpc : s.index.toNat ≤ 4094 := by
    have hlast : s.index.toNat + x.val ≤ 4095 := hfit
    omega
  refine ⟨t, hexec, wordOfBytes (readReg s 0) (readReg s 1), ?_, wordOfBytes_toNat _ _⟩
  exact fetchWord_eq_some_iff.mpr ⟨hpc, by simp only [setPc_pc, readByte_setPc, hV0, hV1]⟩

end Sys2Proof.Machine
end

section
/-! PROOF. Decode and encode agree (30_encoding.md R53 to R59): a word is the format of its fields, a format word's
fields are its operands, and the masks of R57 and R58 keep fields whole. -/

namespace Sys2Proof

/-! ## The fields of a format word are its operands (R52, R53) -/

@[simp] theorem opField_formatA (op : BitVec 4) (nnn : Addr) : opField (formatA op nnn) = op :=
  BitVec.eq_of_toNat_eq (by rw [opField_toNat, formatA_toNat]; omega)

@[simp] theorem nnnField_formatA (op : BitVec 4) (nnn : Addr) : nnnField (formatA op nnn) = nnn :=
  nnnField_eq (by rw [formatA_toNat]; omega)

@[simp] theorem opField_formatXB (op : BitVec 4) (x : Reg) (nn : Byte) : opField (formatXB op x nn) = op :=
  BitVec.eq_of_toNat_eq (by rw [opField_toNat, formatXB_toNat]; omega)

@[simp] theorem xField_formatXB (op : BitVec 4) (x : Reg) (nn : Byte) : xField (formatXB op x nn) = x :=
  xField_eq (by rw [formatXB_toNat]; omega)

@[simp] theorem nnField_formatXB (op : BitVec 4) (x : Reg) (nn : Byte) : nnField (formatXB op x nn) = nn :=
  nnField_eq (by rw [formatXB_toNat]; omega)

@[simp] theorem opField_formatXYN (op : BitVec 4) (x y : Reg) (n : Nibble) : opField (formatXYN op x y n) = op :=
  BitVec.eq_of_toNat_eq (by rw [opField_toNat, formatXYN_toNat]; omega)

@[simp] theorem xField_formatXYN (op : BitVec 4) (x y : Reg) (n : Nibble) : xField (formatXYN op x y n) = x :=
  xField_eq (by rw [formatXYN_toNat]; omega)

@[simp] theorem yField_formatXYN (op : BitVec 4) (x y : Reg) (n : Nibble) : yField (formatXYN op x y n) = y :=
  yField_eq (by rw [formatXYN_toNat]; omega)

@[simp] theorem nField_formatXYN (op : BitVec 4) (x y : Reg) (n : Nibble) : nField (formatXYN op x y n) = n :=
  nField_eq (by rw [formatXYN_toNat]; omega)

/-! ## A word is the format of its fields -/

theorem formatA_fields (w : Word) : formatA (opField w) (nnnField w) = w :=
  BitVec.eq_of_toNat_eq (by rw [formatA_toNat, opField_toNat, nnnField_toNat]; omega)

theorem formatXB_fields (w : Word) : formatXB (opField w) (xField w) (nnField w) = w :=
  BitVec.eq_of_toNat_eq (by rw [formatXB_toNat, opField_toNat, xField_val, nnField_toNat]; omega)

theorem formatXYN_fields (w : Word) : formatXYN (opField w) (xField w) (yField w) (nField w) = w :=
  BitVec.eq_of_toNat_eq (by
    rw [formatXYN_toNat, opField_toNat, xField_val, yField_val, nField_toNat]; omega)

/-! ## The masks of the opcode map select by fields (R56, R57) -/

theorem and_high (w : Word) : w &&& 0xF000 = formatA (opField w) 0 := by
  conv_lhs => rw [← formatA_fields w]
  exact formatA_and_high _ _

theorem and_lowNibble (w : Word) : w &&& 0xF00F = formatXYN (opField w) 0 0 (nField w) := by
  conv_lhs => rw [← formatXYN_fields w]
  exact formatXYN_and_selector _ _ _ _

theorem and_lowByte (w : Word) : w &&& 0xF0FF = formatXB (opField w) 0 (nnField w) := by
  conv_lhs => rw [← formatXB_fields w]
  exact formatXB_and_selector _ _ _

theorem opField_of_and_high {w m : Word} (h : w &&& 0xF000 = m) : opField w = opField m := by
  rw [← h, and_high, opField_formatA]

theorem fields_of_and_lowNibble {w m : Word} (h : w &&& 0xF00F = m) :
    opField w = opField m ∧ nField w = nField m := by
  rw [← h, and_lowNibble, opField_formatXYN, nField_formatXYN]
  exact ⟨rfl, rfl⟩

theorem fields_of_and_lowByte {w m : Word} (h : w &&& 0xF0FF = m) :
    opField w = opField m ∧ nnField w = nnField m := by
  rw [← h, and_lowByte, opField_formatXB, nnField_formatXB]
  exact ⟨rfl, rfl⟩

/-! ## Decoding an encoded instruction -/

/-- The fields of the format pick the instruction's own arm of the decoder and fill in its operands. -/
theorem decodeWord_encode (i : Instr) : decodeWord (encode i) = .ok i := by
  cases i with
  | cls | ret => rfl
  | jp | call | seByte | sneByte | seReg | ldByte | addByte | sneReg | ldI | jpV0 | rnd | drw =>
    simp [encode, decodeWord]
  | ldReg | orReg | andReg | xorReg | addReg | subReg | shr | subnReg | shl =>
    simp [encode, decodeWord, decodeGroup8]
  | skp | sknp => simp [encode, decodeWord, decodeGroupE]
  | ldVxDt | ldVxK | ldDtVx | ldStVx | addIVx | ldFVx | ldBVx | ldMemVx | ldVxMem =>
    simp [encode, decodeWord, decodeGroupF]

/-- Settles O1: a format word's fields are its operands, and the bytes an assembler places are those of the word. -/
theorem decodeOfEncodeIsIdentity : Obligations.DecodeOfEncodeIsIdentity := by
  intro i rest
  exact ⟨decodeWord_encode i, by rw [encodeBytes, decode_bytesOfWord, decodeWord_encode]⟩

/-! ## The bits decode uses (R58) -/

theorem and_all (w : Word) : w &&& 0xFFFF = w := BitVec.and_allOnes

theorem and_butLowNibble (w : Word) : w &&& 0xFFF0 = formatXYN (opField w) (xField w) (yField w) 0 := by
  have hmask (op x y n : BitVec 4) :
      (op ++ x ++ y ++ n) &&& ((0xF : BitVec 4) ++ (0xF : BitVec 4) ++ (0xF : BitVec 4) ++ (0 : BitVec 4)) =
        op ++ x ++ y ++ (0 : BitVec 4) := by
    simp only [BitVec.and_append, nibble_and_full, nibble_and_zero]
  conv_lhs => rw [← formatXYN_fields w]
  exact hmask _ _ _ _

theorem and_butY (w : Word) : w &&& 0xFF0F = formatXYN (opField w) (xField w) 0 (nField w) := by
  have hmask (op x y n : BitVec 4) :
      (op ++ x ++ y ++ n) &&& ((0xF : BitVec 4) ++ (0xF : BitVec 4) ++ (0 : BitVec 4) ++ (0xF : BitVec 4)) =
        op ++ x ++ (0 : BitVec 4) ++ n := by
    simp only [BitVec.and_append, nibble_and_full, nibble_and_zero]
  conv_lhs => rw [← formatXYN_fields w]
  exact hmask _ _ _ _

section
variable {w : Word} {op : BitVec 4} (hop : (opField w).toNat = op.toNat)
include hop

theorem formatA_eq_and_all : formatA op (nnnField w) = w &&& 0xFFFF := by
  rw [and_all, ← BitVec.eq_of_toNat_eq hop, formatA_fields]

theorem formatXB_eq_and_all {nn : Byte} (hnn : (nnField w).toNat = nn.toNat) :
    formatXB op (xField w) nn = w &&& 0xFFFF := by
  rw [and_all, ← BitVec.eq_of_toNat_eq hop, ← BitVec.eq_of_toNat_eq hnn, formatXB_fields]

theorem formatXYN_eq_and_all {n : Nibble} (hn : (nField w).toNat = n.toNat) :
    formatXYN op (xField w) (yField w) n = w &&& 0xFFFF := by
  rw [and_all, ← BitVec.eq_of_toNat_eq hop, ← BitVec.eq_of_toNat_eq hn, formatXYN_fields]

theorem formatXYN_zero_eq_and_butLowNibble : formatXYN op (xField w) (yField w) 0 = w &&& 0xFFF0 := by
  rw [and_butLowNibble, BitVec.eq_of_toNat_eq hop]

theorem formatXYN_eq_and_butY {n : Nibble} (hn : (nField w).toNat = n.toNat) :
    formatXYN op (xField w) 0 n = w &&& 0xFF0F := by
  rw [and_butY, BitVec.eq_of_toNat_eq hop, BitVec.eq_of_toNat_eq hn]

end

/-! ## Encoding what a word decodes to, group by group -/

theorem encode_of_decodeGroup0 {w : Word} {i : Instr} (h : decodeGroup0 w = .ok i) : encode i = w &&& usedBits i := by
  unfold decodeGroup0 at h
  split at h
  next hw => cases h; rw [hw]; rfl
  next =>
    split at h
    next hw => cases h; rw [hw]; rfl
    next => cases h

theorem encode_of_decodeGroup8 {w : Word} {i : Instr} (hop : (opField w).toNat = 0x8) (h : decodeGroup8 w = .ok i) :
    encode i = w &&& usedBits i := by
  unfold decodeGroup8 at h
  split at h <;> cases h
  case h_7 hn => exact formatXYN_eq_and_butY hop hn
  case h_9 hn => exact formatXYN_eq_and_butY hop hn
  all_goals
    next hn => exact formatXYN_eq_and_all hop hn

theorem encode_of_decodeGroupE {w : Word} {i : Instr} (hop : (opField w).toNat = 0xE) (h : decodeGroupE w = .ok i) :
    encode i = w &&& usedBits i := by
  unfold decodeGroupE at h
  split at h <;> cases h
  all_goals
    next hnn => exact formatXB_eq_and_all hop hnn

theorem encode_of_decodeGroupF {w : Word} {i : Instr} (hop : (opField w).toNat = 0xF) (h : decodeGroupF w = .ok i) :
    encode i = w &&& usedBits i := by
  unfold decodeGroupF at h
  split at h <;> cases h
  all_goals
    next hnn => exact formatXB_eq_and_all hop hnn

/-- Settles O4: in each arm of the decoder the operands are fields of the word, so the format of the canonical word puts
them back in their places. Arm `h_n` of the primary decode is the group of the high nibble n - 1. -/
theorem encodeOfDecodeKeepsUsedBits : Obligations.EncodeOfDecodeKeepsUsedBits := by
  intro w i h
  unfold decodeWord at h
  split at h
  case h_1 => exact encode_of_decodeGroup0 h
  case h_9 hop => exact encode_of_decodeGroup8 hop h
  case h_15 hop => exact encode_of_decodeGroupE hop h
  case h_16 =>
    have hlt : (opField w).toNat < 16 := (opField w).isLt
    have hop : (opField w).toNat = 0xF := by grind
    exact encode_of_decodeGroupF hop h
  case h_6 hop => cases h; exact formatXYN_zero_eq_and_butLowNibble hop
  case h_10 hop => cases h; exact formatXYN_zero_eq_and_butLowNibble hop
  case h_14 hop => cases h; exact formatXYN_eq_and_all hop rfl
  case h_2 hop | h_3 hop | h_11 hop | h_12 hop => cases h; exact formatA_eq_and_all hop
  case h_4 hop | h_5 hop | h_7 hop | h_8 hop | h_13 hop => cases h; exact formatXB_eq_and_all hop rfl

/-! ## The decoder and the opcode map (R55, R57) -/

/-- Decode uses every bit that selects a row. -/
theorem usedBits_and_mask (i : Instr) : usedBits i &&& (rowMatchMask i).2 = (rowMatchMask i).2 := by
  cases i with
  | seReg | sneReg | shr | shl => simp only [usedBits, rowMatchMask]; rfl
  | _ => exact BitVec.allOnes_and

/-- Every canonical word lies in its row: the lemmas of the constructors together. -/
theorem encode_and_mask : ∀ i : Instr, encode i &&& (rowMatchMask i).2 = (rowMatchMask i).1
  | .cls => Laws.EncodesRow.cls
  | .ret => Laws.EncodesRow.ret
  | .jp _ => Laws.EncodesRow.jp _
  | .call _ => Laws.EncodesRow.call _
  | .seByte _ _ => Laws.EncodesRow.seByte _ _
  | .sneByte _ _ => Laws.EncodesRow.sneByte _ _
  | .seReg _ _ => Laws.EncodesRow.seReg _ _
  | .ldByte _ _ => Laws.EncodesRow.ldByte _ _
  | .addByte _ _ => Laws.EncodesRow.addByte _ _
  | .ldReg _ _ => Laws.EncodesRow.ldReg _ _
  | .orReg _ _ => Laws.EncodesRow.orReg _ _
  | .andReg _ _ => Laws.EncodesRow.andReg _ _
  | .xorReg _ _ => Laws.EncodesRow.xorReg _ _
  | .addReg _ _ => Laws.EncodesRow.addReg _ _
  | .subReg _ _ => Laws.EncodesRow.subReg _ _
  | .shr _ => Laws.EncodesRow.shr _
  | .subnReg _ _ => Laws.EncodesRow.subnReg _ _
  | .shl _ => Laws.EncodesRow.shl _
  | .sneReg _ _ => Laws.EncodesRow.sneReg _ _
  | .ldI _ => Laws.EncodesRow.ldI _
  | .jpV0 _ => Laws.EncodesRow.jpV0 _
  | .rnd _ _ => Laws.EncodesRow.rnd _ _
  | .drw _ _ _ => Laws.EncodesRow.drw _ _ _
  | .skp _ => Laws.EncodesRow.skp _
  | .sknp _ => Laws.EncodesRow.sknp _
  | .ldVxDt _ => Laws.EncodesRow.ldVxDt _
  | .ldVxK _ => Laws.EncodesRow.ldVxK _
  | .ldDtVx _ => Laws.EncodesRow.ldDtVx _
  | .ldStVx _ => Laws.EncodesRow.ldStVx _
  | .addIVx _ => Laws.EncodesRow.addIVx _
  | .ldFVx _ => Laws.EncodesRow.ldFVx _
  | .ldBVx _ => Laws.EncodesRow.ldBVx _
  | .ldMemVx _ => Laws.EncodesRow.ldMemVx _
  | .ldVxMem _ => Laws.EncodesRow.ldVxMem _

/-- A word that decodes to an instruction lies in its row: its used bits are those of the canonical word. -/
theorem row_of_decodeWord {w : Word} {i : Instr} (h : decodeWord w = .ok i) :
    w &&& (rowMatchMask i).2 = (rowMatchMask i).1 := by
  calc w &&& (rowMatchMask i).2
      = w &&& usedBits i &&& (rowMatchMask i).2 := by rw [BitVec.and_assoc, usedBits_and_mask]
    _ = encode i &&& (rowMatchMask i).2 := by rw [encodeOfDecodeKeepsUsedBits w i h]
    _ = (rowMatchMask i).1 := encode_and_mask i

/-- A word in the row of an instruction decodes to an instruction of that row: the mask fixes the fields that the two
levels of decode look at. (`by rfl` puts the row's equation after the decoding, which is what finds `j`.) -/
theorem decodeWord_of_row {w : Word} {i : Instr} (h : w &&& (rowMatchMask i).2 = (rowMatchMask i).1) :
    ∃ j, decodeWord w = .ok j ∧ rowMatchMask j = rowMatchMask i := by
  cases i <;> simp only [rowMatchMask] at h
  case cls | ret =>
    obtain rfl : w = _ := (and_all w).symm.trans h
    exact ⟨_, rfl, rfl⟩
  case jp | call | seByte | sneByte | seReg | ldByte | addByte | sneReg | ldI | jpV0 | rnd | drw =>
    have hop := opField_of_and_high h
    exact ⟨_, by rw [decodeWord, hop]; rfl, by rfl⟩
  case ldReg | orReg | andReg | xorReg | addReg | subReg | shr | subnReg | shl =>
    obtain ⟨hop, hn⟩ := fields_of_and_lowNibble h
    have hgroup : decodeWord w = decodeGroup8 w := by rw [decodeWord, hop]; rfl
    exact ⟨_, by rw [hgroup, decodeGroup8, hn]; rfl, by rfl⟩
  case skp | sknp =>
    obtain ⟨hop, hnn⟩ := fields_of_and_lowByte h
    have hgroup : decodeWord w = decodeGroupE w := by rw [decodeWord, hop]; rfl
    exact ⟨_, by rw [hgroup, decodeGroupE, hnn]; rfl, by rfl⟩
  case ldVxDt | ldVxK | ldDtVx | ldStVx | addIVx | ldFVx | ldBVx | ldMemVx | ldVxMem =>
    obtain ⟨hop, hnn⟩ := fields_of_and_lowByte h
    have hgroup : decodeWord w = decodeGroupF w := by rw [decodeWord, hop]; rfl
    exact ⟨_, by rw [hgroup, decodeGroupF, hnn]; rfl, by rfl⟩

/-- Settles O2, one lemma for each direction. -/
theorem decoderIsTheMatchMaskTable : Obligations.DecoderIsTheMatchMaskTable := by
  intro w i
  exact ⟨decodeWord_of_row, fun ⟨j, hdec, hrow⟩ => hrow ▸ row_of_decodeWord hdec⟩

/-! ## The Unknown words (R59) -/

theorem decodeGroup0_eq_error_iff {w : Word} {g : Unknown} :
    decodeGroup0 w = .error g ↔ g = .group0 ∧ w.toNat ≠ 0x00E0 ∧ w.toNat ≠ 0x00EE := by
  have hcls : w = 0x00E0 ↔ w.toNat = 0x00E0 := BitVec.toNat_eq
  have hret : w = 0x00EE ↔ w.toNat = 0x00EE := BitVec.toNat_eq
  rw [decodeGroup0, Ne, Ne, ← hcls, ← hret]
  split
  next h => simp [h]
  next h =>
    split
    next h' => simp [h']
    next h' => simp only [h, h', Except.error.injEq, not_false_eq_true, and_self, and_true, eq_comm]

theorem decodeGroup8_eq_error_iff {w : Word} {g : Unknown} :
    decodeGroup8 w = .error g ↔ g = .group8 ∧ w.toNat % 16 ∈ [0x8, 0x9, 0xA, 0xB, 0xC, 0xD, 0xF] := by
  rw [decodeGroup8, nField_toNat]
  split
  case h_10 =>
    have hmem : w.toNat % 16 ∈ [0x8, 0x9, 0xA, 0xB, 0xC, 0xD, 0xF] := by
      simp only [List.mem_cons, List.not_mem_nil]
      simp only [imp_false] at *
      omega
    simp [hmem, eq_comm]
  all_goals
    next hn => simp [hn]

theorem decodeGroupE_eq_error_iff {w : Word} {g : Unknown} :
    decodeGroupE w = .error g ↔ g = .groupE ∧ w.toNat % 256 ∉ [0x9E, 0xA1] := by
  rw [decodeGroupE, nnField_toNat]
  split
  case h_3 =>
    have hmem : w.toNat % 256 ∉ [0x9E, 0xA1] := by simp_all
    simp [hmem, eq_comm]
  all_goals
    next hnn => simp [hnn]

theorem decodeGroupF_eq_error_iff {w : Word} {g : Unknown} :
    decodeGroupF w = .error g ↔
      g = .groupF ∧ w.toNat % 256 ∉ [0x07, 0x0A, 0x15, 0x18, 0x1E, 0x29, 0x33, 0x55, 0x65] := by
  rw [decodeGroupF, nnField_toNat]
  split
  case h_10 =>
    have hmem : w.toNat % 256 ∉ [0x07, 0x0A, 0x15, 0x18, 0x1E, 0x29, 0x33, 0x55, 0x65] := by simp_all
    simp [hmem, eq_comm]
  all_goals
    next hnn => simp [hnn]

/-- A word is rejected exactly when a primary group with a secondary selector rejects it (R55). -/
theorem decodeWord_eq_error_iff {w : Word} {g : Unknown} :
    decodeWord w = .error g ↔
      (w.toNat / 4096 = 0x0 ∧ decodeGroup0 w = .error g) ∨ (w.toNat / 4096 = 0x8 ∧ decodeGroup8 w = .error g) ∨
      (w.toNat / 4096 = 0xE ∧ decodeGroupE w = .error g) ∨ (w.toNat / 4096 = 0xF ∧ decodeGroupF w = .error g) := by
  rw [decodeWord_eq]
  split
  case h_16 =>
    have hop : w.toNat / 4096 = 0xF := by
      have hlt : w.toNat / 4096 < 16 := by omega
      grind
    simp [hop]
  all_goals
    next hop => simp [hop]

/-- Settles O3: only the group a word belongs to can reject it, and each group rejects by its own name. -/
theorem unknownWordsByGroup : Obligations.UnknownWordsByGroup := by
  intro w
  simp [decodeWord_eq_error_iff, decodeGroup0_eq_error_iff, decodeGroup8_eq_error_iff, decodeGroupE_eq_error_iff,
    decodeGroupF_eq_error_iff]

end Sys2Proof
end

section
/-! PROOF. JP and JP V0 (40_control_transfer.md R65, R66; 92_eei_decisions.md D17), and the invariant `Inv` that every
step keeps: first each operation on the state, then each instruction, then the step itself. -/

namespace Sys2Proof

/-- The word of a format A row, as a number, is the format's word (30_encoding.md R53). -/
theorem ofNat_eq_formatA (op : BitVec 4) (nnn : Addr) :
    BitVec.ofNat 16 (4096 * op.toNat + nnn.toNat) = formatA op nnn :=
  BitVec.eq_of_toNat_eq (by rw [formatA_toNat, BitVec.toNat_ofNat]; omega)

end Sys2Proof

namespace Sys2Proof.Machine

/-! ## Targets of a jump as numbers -/

@[simp] theorem addrWord_toNat (nnn : Addr) : (addrWord nnn).toNat = nnn.toNat := by
  rw [addrWord, BitVec.toNat_setWidth]
  omega

@[simp] theorem byteWord_toNat (b : Byte) : (byteWord b).toNat = b.toNat := by
  rw [byteWord, BitVec.toNat_setWidth]
  omega

/-- The sum of JP V0 does not wrap at 16 bits and is not reduced to 12 (D17). -/
theorem addrWord_add_byteWord_toNat (nnn : Addr) (b : Byte) :
    (addrWord nnn + byteWord b).toNat = nnn.toNat + b.toNat := by
  rw [BitVec.toNat_add, addrWord_toNat, byteWord_toNat]
  omega

/-- Settles O20: the word is format A with high nibble 1, and JP writes pc alone. -/
theorem jpSetsPc : Obligations.JpSetsPc := by
  intro nnn s
  refine ⟨?decode, setPc (addrWord nnn) s, rfl, addrWord_toNat nnn, setPc_onlyChanges s _⟩
  case decode => exact ofNat_eq_formatA 0x1 nnn ▸ decodeWord_encode (.jp nnn)

/-- Settles O21: the word is format A with high nibble B, and the sum of 12 bits and 8 bits stays below 65536. -/
theorem jpV0AddsV0 : Obligations.JpV0AddsV0 := by
  intro nnn s
  have hsum := addrWord_add_byteWord_toNat nnn (readReg s 0)
  refine ⟨?decode, setPc (addrWord nnn + byteWord (readReg s 0)) s, rfl, hsum, ?bound, setPc_onlyChanges s _⟩
  case decode => exact ofNat_eq_formatA 0xB nnn ▸ decodeWord_encode (.jpV0 nnn)
  case bound => rw [setPc_pc, hsum]; omega

/-! ## Operations that keep the invariant

`Inv` reads mem, stack, pc and the three latches. An operation that writes none of these keeps it by definition; each of
the others has its rule here. -/

section Invariant

variable {s : State}

theorem inv_setPc (h : Inv s) {w : Word} (hw : w.toNat ≤ 0x10FE) : Inv (setPc w s) := by
  obtain ⟨hmem, hslot0, hslots, -, hhalt, hlatch⟩ := h
  exact ⟨hmem, hslot0, hslots, hw, hhalt, hlatch⟩

theorem inv_setMem (h : Inv s) {m : Memory} (hm : Memory.wf m = true) : Inv (setMem m s) := by
  obtain ⟨-, hslot0, hslots, hpc, hhalt, hlatch⟩ := h
  exact ⟨hm, hslot0, hslots, hpc, hhalt, hlatch⟩

/-- A fatal fault leaves a legal code other than 0 in HALT, so nothing is asked of the other two latches. -/
theorem inv_raise (h : Inv s) (f : FatalFault) (a info : Word) : Inv (raise f a info s) := by
  obtain ⟨hmem, hslot0, hslots, hpc, -, -⟩ := h
  obtain ⟨hlegal, hne⟩ := faultCode_legal f
  exact ⟨hmem, hslot0, hslots, hpc, hlegal, fun h0 => absurd h0 hne⟩

/-- A push below depth 15 writes a slot above slot 0 (10_state.md R19, R20). -/
theorem inv_push (h : Inv s) (hsp : s.sp ≠ 15) {w : Word} (hw : w.toNat ≤ 4096) : Inv (push w s) := by
  obtain ⟨hmem, hslot0, hslots, hpc, hhalt, hlatch⟩ := h
  obtain ⟨-, hstack, -⟩ := push_spec s w
  refine ⟨hmem, ?slot0, fun k => ?slots, hpc, hhalt, hlatch⟩
  case slot0 =>
    have hne : (0 : Fin 16) ≠ s.sp + 1 := fun h0 => hsp (by omega)
    rw [hstack, if_neg hne, hslot0]
  case slots =>
    rw [hstack]
    split
    · exact hw
    · exact hslots k

/-- A pop takes pc from a slot, and slots are at most 4096. -/
theorem inv_pop (h : Inv s) : Inv (pop s) := by
  obtain ⟨hmem, hslot0, hslots, -, hhalt, hlatch⟩ := h
  have hpc : (pop s).pc.toNat ≤ 0x10FE := (hslots s.sp).trans (by decide)
  exact ⟨hmem, hslot0, hslots, hpc, hhalt, hlatch⟩

theorem inv_initializeProcessor (h : Inv s) : Inv (initializeProcessor s) := by
  obtain ⟨hmem, -⟩ := h
  refine ⟨hmem, rfl, fun k => ?slots, ?pc, .inl rfl, fun _ => ⟨rfl, rfl⟩⟩
  case slots => simp [initializeProcessor]
  case pc => simp [initializeProcessor]

/-! ## What an instruction starts from -/

/-- The state an instruction executes on: `Inv`, and pc is A + 2 for an address A whose word lies in memory (10_state.md
R17). -/
def ReadyToExecute (s : State) : Prop := Inv s ∧ 2 ≤ s.pc.toNat ∧ s.pc.toNat ≤ 4096

theorem add_two_toNat {w : Word} (hw : w.toNat ≤ 4096) : (w + 2).toNat = w.toNat + 2 := by bv_omega

theorem readyToExecute_advance (h : Inv s) {w : Word} (hfetch : fetchWord s = some w) :
    ReadyToExecute (advance s) := by
  obtain ⟨hpc, -⟩ := fetchWord_eq_some_iff.mp hfetch
  have hadv : (advance s).pc.toNat = s.pc.toNat + 2 := add_two_toNat (by omega)
  exact ⟨inv_setPc h (by rw [advance_pc] at hadv; omega), by omega, by omega⟩

/-- A skip from pc = A + 2 comes to at most 4098. -/
theorem inv_skipIf (hs : ReadyToExecute s) (c : Bool) : Inv (skipIf c s) := by
  obtain ⟨h, -, hpc⟩ := hs
  cases c
  · exact h
  · exact inv_setPc h (by rw [add_two_toNat hpc]; omega)

/-- The key wait's retry goes back to A, which does not wrap because pc is at least 2. -/
theorem inv_retry (hs : ReadyToExecute s) : Inv (setPc (s.pc - 2) s) := by
  obtain ⟨h, hlo, hhi⟩ := hs
  exact inv_setPc h (by bv_omega)

/-! ## Every instruction keeps the invariant -/

/-- Whatever next state is answered meets `Inv`. -/
def AnswersInv (r : Result) : Prop := ∀ t, r = .next t → Inv t

theorem answersInv_next (h : Inv s) : AnswersInv (.next s) := by
  rintro t ⟨⟩
  exact h

theorem answersInv_raised (h : Inv s) (f : FatalFault) (info : Word) : AnswersInv (raised f info s) :=
  answersInv_next (inv_raise h f _ info)

theorem answersInv_execCall (hs : ReadyToExecute s) (nnn : Addr) : AnswersInv (execCall nnn s) := by
  obtain ⟨h, -, hpc⟩ := hs
  unfold execCall
  split
  next => exact answersInv_raised h _ _
  next hsp => exact answersInv_next (inv_setPc (inv_push h hsp hpc) (by rw [addrWord_toNat]; omega))

theorem answersInv_execRet (h : Inv s) : AnswersInv (execRet s) := by
  unfold execRet
  split
  · exact answersInv_raised h _ _
  · exact answersInv_next (inv_pop h)

theorem answersInv_skipOnKey (hs : ReadyToExecute s) (x : Reg) (down : Bool) : AnswersInv (skipOnKey x down s) := by
  unfold skipOnKey
  split
  · exact answersInv_raised hs.1 _ _
  · exact answersInv_next (inv_skipIf hs _)

theorem answersInv_storeAtIndex (h : Inv s) (bs : List Byte) : AnswersInv (storeAtIndex bs s) := by
  obtain ⟨-, heq⟩ | ⟨hfits, heq⟩ := storeAtIndex_cases bs s <;> rw [heq]
  · exact answersInv_raised h _ _
  · exact answersInv_next (inv_setMem h (Memory.wf_writeBytes h.1 hfits))

theorem answersInv_execLdVxMem (h : Inv s) (x : Reg) : AnswersInv (execLdVxMem x s) := by
  unfold execLdVxMem
  split
  · exact answersInv_raised h _ _
  · exact answersInv_next h

theorem answersInv_execDrw (h : Inv s) (x y : Reg) (n : Nibble) : AnswersInv (execDrw x y n s) := by
  unfold execDrw
  split
  · exact answersInv_raised h _ _
  · exact answersInv_next h

theorem answersInv_execLdVxK (hs : ReadyToExecute s) (x : Reg) : AnswersInv (execLdVxK x s) := by
  unfold execLdVxK
  split
  · exact answersInv_next (inv_retry hs)
  · exact answersInv_next hs.1

theorem answersInv_exec (i : Instr) (hs : ReadyToExecute s) : AnswersInv (exec i s) := by
  have h : Inv s := hs.1
  cases i with
  -- These write only V, I, the timers, FB or the draws, of which `Inv` reads nothing.
  | cls | ldByte | addByte | ldReg | orReg | andReg | xorReg | addReg | subReg | shr | subnReg | shl | ldI | rnd
  | ldVxDt | ldDtVx | ldStVx | addIVx | ldFVx => exact answersInv_next h
  | seByte | sneByte | seReg | sneReg => exact answersInv_next (inv_skipIf hs _)
  | skp x | sknp x => exact answersInv_skipOnKey hs x _
  | jp nnn => exact answersInv_next (inv_setPc h (by rw [addrWord_toNat]; omega))
  | jpV0 nnn => exact answersInv_next (inv_setPc h (by rw [addrWord_add_byteWord_toNat]; omega))
  | call nnn => exact answersInv_execCall hs nnn
  | ret => exact answersInv_execRet h
  | drw x y n => exact answersInv_execDrw h x y n
  | ldVxK x => exact answersInv_execLdVxK hs x
  | ldBVx | ldMemVx => exact answersInv_storeAtIndex h _
  | ldVxMem x => exact answersInv_execLdVxMem h x

/-! ## Every step keeps the invariant -/

/-- What a step comes to before an instruction executes is in order: it is over in a state that meets `Inv`, or the
instruction's state is ready for it. -/
def Action.InOrder : Action → Prop
  | .settled t => Inv t
  | .execute _ t => ReadyToExecute t

theorem inOrder_cyclePhases (h : Inv s) : (cyclePhases s).InOrder := by
  obtain ⟨-, heq⟩ | ⟨-, -, heq⟩ | ⟨w, g, -, hfetch, -, heq⟩ | ⟨w, i, -, hfetch, -, heq⟩ := cyclePhases_cases s <;>
    rw [heq]
  case inl => exact h
  case inr.inl => exact inv_raise h _ _ _
  case inr.inr.inl => exact (readyToExecute_advance h hfetch).1
  case inr.inr.inr => exact readyToExecute_advance h hfetch

theorem inOrder_envAction (e : EnvStep) (h : Inv s) : (envAction e s).InOrder := by
  cases e with
  | cycle => exact inOrder_cyclePhases h
  | timerTick | keyEvent | frameRead => exact h
  | initializeProcessor => exact inv_initializeProcessor h

theorem inOrder_nextAction (h : Inv s) : (nextAction s).InOrder := by
  unfold nextAction
  split
  next => exact inOrder_cyclePhases h
  next e rest _ => exact inOrder_envAction e (show Inv (setSchedule rest s) from h)

theorem answersInv_step (h : Inv s) : AnswersInv (step s) := by
  have hact := inOrder_nextAction h
  unfold step
  split <;> rename_i heq <;> rw [heq] at hact
  · exact answersInv_next hact
  · exact answersInv_exec _ hact

end Invariant

/-- Settles O12: pc is bounded because a fetch bounds pc by 4094, JP V0 by 0x10FE and RET by the slots' bound; the slots
because CALL stores A + 2; slot 0 because CALL at depth 15 faults. -/
theorem everyStepKeepsInv : Obligations.EveryStepKeepsInv :=
  fun _ t h hstep => answersInv_step h t hstep

end Sys2Proof.Machine
end

section
/-! PROOF. The six conditional skips (41_conditional_skip.md R69 to R75): their words are the formats XB, XY and X with a
selector byte, and each answers `skipIf` of its condition. -/

namespace Sys2Proof

/-- The word of a format XB row, as a number, is the format's word (30_encoding.md R53). -/
theorem ofNat_eq_formatXB (op : BitVec 4) (x : Reg) (nn : Byte) :
    BitVec.ofNat 16 (4096 * op.toNat + 256 * x.val + nn.toNat) = formatXB op x nn :=
  BitVec.eq_of_toNat_eq (by rw [formatXB_toNat, BitVec.toNat_ofNat]; omega)

/-- The word of a format XY or XYN row, as a number, is the format's word (30_encoding.md R53). -/
theorem ofNat_eq_formatXYN (op : BitVec 4) (x y : Reg) (n : Nibble) :
    BitVec.ofNat 16 (4096 * op.toNat + 256 * x.val + 16 * y.val + n.toNat) = formatXYN op x y n :=
  BitVec.eq_of_toNat_eq (by rw [formatXYN_toNat, BitVec.toNat_ofNat]; omega)

/-- A selector byte stands below the X field: the word of a format X row written as its constant plus the field. -/
theorem ofNat_selector_eq_formatXB (op : BitVec 4) (x : Reg) (sel : Byte) :
    BitVec.ofNat 16 (4096 * op.toNat + sel.toNat + 256 * x.val) = formatXB op x sel := by
  rw [Nat.add_right_comm, ofNat_eq_formatXB]

/-- Group 0x5 does not examine its low nibble (30_encoding.md R58; 92_eei_decisions.md D3). -/
theorem decodeWord_formatXYN_seReg (x y : Reg) (n : Nibble) : decodeWord (formatXYN 0x5 x y n) = .ok (.seReg x y) := by
  simp [decodeWord]

/-- Group 0x9 does not examine its low nibble (30_encoding.md R58; 92_eei_decisions.md D3). -/
theorem decodeWord_formatXYN_sneReg (x y : Reg) (n : Nibble) : decodeWord (formatXYN 0x9 x y n) = .ok (.sneReg x y) := by
  simp [decodeWord]

end Sys2Proof

namespace Sys2Proof.Machine

/-! ## A skip on a condition and on its opposite -/

theorem skipIf_when {c : Bool} {p : Prop} [Decidable p] (hc : c = true ↔ p) (s : State) :
    ∃ t, (.next (skipIf c s) : Result) = .next t ∧ t.pc = (if p then s.pc + 2 else s.pc) ∧ OnlyChanges [.pc] s t := by
  obtain ⟨hpc, hframe⟩ := skipIf_spec s c
  exact ⟨_, rfl, by simp only [hpc, hc], hframe⟩

theorem skipIf_unless {c : Bool} {p : Prop} [Decidable p] (hc : c = true ↔ ¬p) (s : State) :
    ∃ t, (.next (skipIf c s) : Result) = .next t ∧ t.pc = (if p then s.pc else s.pc + 2) ∧ OnlyChanges [.pc] s t := by
  obtain ⟨hpc, hframe⟩ := skipIf_spec s c
  exact ⟨_, rfl, by simp only [hpc, hc, ite_not], hframe⟩

/-- Settles O27: the words are format XB with high nibbles 3 and 4, and the conditions are `=` and its negation. -/
theorem byteSkips : Obligations.ByteSkips := by
  intro x nn s
  refine ⟨?decodeSe, ?decodeSne, skipIf_when beq_iff_eq s, skipIf_unless bne_iff_ne s⟩
  case decodeSe => exact ofNat_eq_formatXB 0x3 x nn ▸ decodeWord_encode (.seByte x nn)
  case decodeSne => exact ofNat_eq_formatXB 0x4 x nn ▸ decodeWord_encode (.sneByte x nn)

/-- Settles O28: groups 5 and 9 decode to the skips whatever the low nibble, and the conditions are `=` and its
negation. -/
theorem registerSkips : Obligations.RegisterSkips := by
  intro x y low s
  refine ⟨?decodeSe, ?decodeSne, skipIf_when beq_iff_eq s, skipIf_unless bne_iff_ne s⟩
  case decodeSe => exact ofNat_eq_formatXYN 0x5 x y low ▸ decodeWord_formatXYN_seReg x y low
  case decodeSne => exact ofNat_eq_formatXYN 0x9 x y low ▸ decodeWord_formatXYN_sneReg x y low

/-! ## A skip on a key -/

/-- When V[x] names the key k, SKP and SKNP test k and do not fault (R74, R75). -/
theorem skipOnKey_of_names {x : Reg} {k : Key} {s : State} (hk : (readReg s x).toNat = k.val) (down : Bool) :
    skipOnKey x down s = .next (skipIf (keyDown s k == down) s) := by
  rw [skipOnKey, (keyOfByte_eq_some_iff _ k).mpr hk]

/-- Settles O29: the words are format X with high nibble E and the selector bytes 9E and A1, and a register that names
k makes both instructions skips on the state of k. -/
theorem keySkips : Obligations.KeySkips := by
  intro x k s hk
  have hskp : exec (.skp x) s = .next (skipIf (keyDown s k == true) s) := skipOnKey_of_names hk true
  have hsknp : exec (.sknp x) s = .next (skipIf (keyDown s k == false) s) := skipOnKey_of_names hk false
  rw [hskp, hsknp]
  refine ⟨?decodeSkp, ?decodeSknp, skipIf_when beq_iff_eq s, skipIf_unless ?up s⟩
  case decodeSkp => exact ofNat_selector_eq_formatXB 0xE x 0x9E ▸ decodeWord_encode (.skp x)
  case decodeSknp => exact ofNat_selector_eq_formatXB 0xE x 0xA1 ▸ decodeWord_encode (.sknp x)
  case up => rw [beq_iff_eq, Bool.not_eq_true]

end Sys2Proof.Machine
end

section
/-! PROOF. The register load and arithmetic instructions (42_register_alu.md R76 to R88): their words are the formats XB
and XY, each answers one register written or a result and its flag, and the values written are read as numbers. -/

namespace Sys2Proof

/-- A selector nibble stands below the X and Y fields: the word of a format XY row written as its constant plus the
fields. -/
theorem ofNat_selector_eq_formatXYN (op : BitVec 4) (x y : Reg) (sel : Nibble) :
    BitVec.ofNat 16 (4096 * op.toNat + sel.toNat + 256 * x.val + 16 * y.val) = formatXYN op x y sel := by
  rw [← ofNat_eq_formatXYN]
  congr 1
  omega

/-- The word of SHR decodes to it whatever its Y field (30_encoding.md R58; 92_eei_decisions.md D13). -/
theorem decodeWord_formatXYN_shr (x y : Reg) : decodeWord (formatXYN 0x8 x y 0x6) = .ok (.shr x) := by
  simp [decodeWord, decodeGroup8]

/-- The word of SHL decodes to it whatever its Y field (30_encoding.md R58; 92_eei_decisions.md D13). -/
theorem decodeWord_formatXYN_shl (x y : Reg) : decodeWord (formatXYN 0x8 x y 0xE) = .ok (.shl x) := by
  simp [decodeWord, decodeGroup8]

end Sys2Proof

namespace Sys2Proof.Machine

/-! ## What a write leaves in the destination, in VF and in the other registers -/

/-- `readReg_setReg` by cases, with the frame. -/
theorem setReg_spec (s : State) (x : Reg) (b : Byte) :
    readReg (setReg x b s) x = b ∧ (∀ r, r ≠ x → readReg (setReg x b s) r = readReg s r) ∧
      OnlyChanges [.v] s (setReg x b s) :=
  ⟨by simp, fun r hr => by simp [hr], setReg_onlyChanges s x b⟩

/-- `writeFlagged_spec` by cases: VF holds the flag whatever x is, since the flag goes last (10_state.md R14). -/
theorem writeFlagged_cases (s : State) (x : Reg) (b f : Byte) :
    readReg (writeFlagged x b f s) 15 = f ∧ (x ≠ 15 → readReg (writeFlagged x b f s) x = b) ∧
      (∀ r, r ≠ x → r ≠ 15 → readReg (writeFlagged x b f s) r = readReg s r) ∧
      OnlyChanges [.v] s (writeFlagged x b f s) := by
  obtain ⟨hregs, hframe⟩ := writeFlagged_spec s x b f
  exact ⟨by simp [hregs], fun hx => by simp [hregs, hx], fun r hrx hr15 => by simp [hregs, hrx, hr15], hframe⟩

/-! ## Flags and results as numbers (R76) -/

theorem flagByte_decide (p : Prop) [Decidable p] : flagByte (decide p) = if p then 1 else 0 := by
  simp [flagByte]

theorem flagByte_toNat (c : Bool) : (flagByte c).toNat = c.toNat := by
  cases c <;> rfl

theorem lowBitFlag_toNat (a : Byte) : (lowBitFlag a).toNat = a.toNat % 2 := by
  rw [lowBitFlag, flagByte_toNat, BitVec.getLsbD, Nat.toNat_testBit, Nat.pow_zero, Nat.div_one]

theorem highBitFlag_toNat (a : Byte) : (highBitFlag a).toNat = a.toNat / 128 := by
  rw [highBitFlag, flagByte_toNat, BitVec.getLsbD, Nat.toNat_testBit]
  omega

/-- The difference modulo 256, which is not negative when the second operand is the greater. -/
theorem sub_toNat (a b : Byte) : ((a - b).toNat : Int) = (a.toNat - b.toNat : Int) % 256 := by
  rw [BitVec.toNat_sub]
  omega

theorem ushiftRight_one_toNat (a : Byte) : (a >>> 1).toNat = a.toNat / 2 := by
  rw [BitVec.toNat_ushiftRight, Nat.shiftRight_one]

theorem shiftLeft_one_toNat (a : Byte) : (a <<< 1).toNat = 2 * a.toNat % 256 := by
  rw [BitVec.toNat_shiftLeft, Nat.shiftLeft_eq, Nat.pow_one, Nat.mul_comm]

/-! ## One register written and no flag -/

/-- Settles O31: the word is format XB with high nibble 6, and the immediate is the byte written. -/
theorem ldByteLoadsTheImmediate : Obligations.LdByteLoadsTheImmediate := by
  intro x nn s
  refine ⟨?decode, setReg x nn s, rfl, setReg_spec s x nn⟩
  case decode => exact ofNat_eq_formatXB 0x6 x nn ▸ decodeWord_encode (.ldByte x nn)

/-- Settles O32: the word is format XB with high nibble 7, and the addition of bytes wraps at 256. -/
theorem addByteWrapsWithoutFlag : Obligations.AddByteWrapsWithoutFlag := by
  intro x nn s
  obtain ⟨hx, hframe⟩ := setReg_spec s x (readReg s x + nn)
  refine ⟨?decode, _, rfl, ?sum, hframe⟩
  case decode => exact ofNat_eq_formatXB 0x7 x nn ▸ decodeWord_encode (.addByte x nn)
  case sum => rw [hx, BitVec.toNat_add]

/-- Settles O33: the word is format XY with selector 0, and V[y] is the byte written. -/
theorem ldRegCopies : Obligations.LdRegCopies := by
  intro x y s
  refine ⟨?decode, setReg x (readReg s y) s, rfl, setReg_spec s x (readReg s y)⟩
  case decode => exact ofNat_selector_eq_formatXYN 0x8 x y 0x0 ▸ decodeWord_encode (.ldReg x y)

/-- Settles O34: the words are format XY with selectors 1 to 3, and the one byte written is the operation on bytes, which
acts on each bit. -/
theorem logicOpsActBitwiseWithoutFlag : Obligations.LogicOpsActBitwiseWithoutFlag := by
  intro x y s
  obtain ⟨hor, horFrame⟩ := setReg_spec s x (readReg s x ||| readReg s y)
  obtain ⟨hand, handFrame⟩ := setReg_spec s x (readReg s x &&& readReg s y)
  obtain ⟨hxor, hxorFrame⟩ := setReg_spec s x (readReg s x ^^^ readReg s y)
  refine ⟨?decodeOr, ?decodeAnd, ?decodeXor, ⟨_, rfl, ?or, horFrame⟩, ⟨_, rfl, ?and, handFrame⟩,
    ⟨_, rfl, ?xor, hxorFrame⟩⟩
  case decodeOr => exact ofNat_selector_eq_formatXYN 0x8 x y 0x1 ▸ decodeWord_encode (.orReg x y)
  case decodeAnd => exact ofNat_selector_eq_formatXYN 0x8 x y 0x2 ▸ decodeWord_encode (.andReg x y)
  case decodeXor => exact ofNat_selector_eq_formatXYN 0x8 x y 0x3 ▸ decodeWord_encode (.xorReg x y)
  case or => exact fun j => by rw [hor, BitVec.getLsbD_or]
  case and => exact fun j => by rw [hand, BitVec.getLsbD_and]
  case xor => exact fun j => by rw [hxor, BitVec.getLsbD_xor]

/-! ## A result and its flag -/

/-- Settles O35: the word is format XY with selector 4, the addition of bytes wraps at 256, and the flag computed from
the old operands is written last. -/
theorem addRegSetsCarry : Obligations.AddRegSetsCarry := by
  intro x y s
  obtain ⟨hflag, hsum, hframe⟩ :=
    writeFlagged_cases s x (readReg s x + readReg s y) (carryFlag (readReg s x) (readReg s y))
  refine ⟨?decode, _, rfl, hflag.trans (flagByte_decide _), ?sum, hframe⟩
  case decode => exact ofNat_selector_eq_formatXYN 0x8 x y 0x4 ▸ decodeWord_encode (.addReg x y)
  case sum => exact fun hx => by rw [hsum hx, BitVec.toNat_add]

/-- What SUB and SUBN share: the difference `a - b` and its flag written to V[x] and VF (R85, R87). -/
theorem writeFlagged_sub (s : State) (x : Reg) (a b : Byte) :
    ∃ t, (.next (writeFlagged x (a - b) (greaterFlag a b) s) : Result) = .next t ∧
      readReg t 15 = (if a.toNat > b.toNat then 1 else 0) ∧
      (x ≠ 15 → ((readReg t x).toNat : Int) = (a.toNat - b.toNat : Int) % 256) ∧
      (∀ r, r ≠ x → r ≠ 15 → readReg t r = readReg s r) ∧ OnlyChanges [.v] s t := by
  obtain ⟨hflag, hdiff, hframe⟩ := writeFlagged_cases s x (a - b) (greaterFlag a b)
  exact ⟨_, rfl, hflag.trans (flagByte_decide _), fun hx => by rw [hdiff hx, sub_toNat], hframe⟩

/-- Settles O36: the words are format XY with selectors 5 and 7, and SUBN is the subtraction of SUB with its operands
exchanged. -/
theorem subtractionsSetStrictlyGreater : Obligations.SubtractionsSetStrictlyGreater := by
  intro x y s
  refine ⟨?decodeSub, ?decodeSubn, writeFlagged_sub s x (readReg s x) (readReg s y),
    writeFlagged_sub s x (readReg s y) (readReg s x)⟩
  case decodeSub => exact ofNat_selector_eq_formatXYN 0x8 x y 0x5 ▸ decodeWord_encode (.subReg x y)
  case decodeSubn => exact ofNat_selector_eq_formatXYN 0x8 x y 0x7 ▸ decodeWord_encode (.subnReg x y)

/-- Settles O37: the words are format XY with selectors 6 and E and any Y field, and a shift by one moves the bit that
the flag was taken from out of the byte. -/
theorem shiftsSetTheBitShiftedOut : Obligations.ShiftsSetTheBitShiftedOut := by
  intro x y s
  obtain ⟨hlow, hhalf, hshrFrame⟩ := writeFlagged_cases s x (readReg s x >>> 1) (lowBitFlag (readReg s x))
  obtain ⟨hhigh, hdouble, hshlFrame⟩ := writeFlagged_cases s x (readReg s x <<< 1) (highBitFlag (readReg s x))
  refine ⟨?decodeShr, ?decodeShl, ⟨_, rfl, ?low, ?half, hshrFrame⟩, ⟨_, rfl, ?high, ?double, hshlFrame⟩⟩
  case decodeShr => exact ofNat_selector_eq_formatXYN 0x8 x y 0x6 ▸ decodeWord_formatXYN_shr x y
  case decodeShl => exact ofNat_selector_eq_formatXYN 0x8 x y 0xE ▸ decodeWord_formatXYN_shl x y
  case low => rw [hlow, lowBitFlag_toNat]
  case half => exact fun hx => by rw [hhalf hx, ushiftRight_one_toNat]
  case high => rw [hhigh, highBitFlag_toNat]
  case double => exact fun hx => by rw [hdouble hx, shiftLeft_one_toNat]

end Sys2Proof.Machine
end

section
/-! PROOF. The memory and index instructions (43_memory_index.md R89 to R95): LD I, ADD I and LD F write I alone, and
each of the three transfers, where its run lies inside memory, moves its bytes and leaves I and everything else alone
(92_eei_decisions.md D12). -/

namespace Sys2Proof.Machine

/-! ## The index register -/

theorem setIndex_onlyChanges (s : State) (w : Word) : OnlyChanges [.index] s (setIndex w s) := by
  intro p hp; cases p <;> simp_all [Agree, readByte]

/-- Five times a byte stays below 65536, so LD F does not wrap (R92). -/
theorem five_mul_byteWord_toNat (b : Byte) : (BitVec.ofNat 16 Config.glyphBytes * byteWord b).toNat = 5 * b.toNat := by
  have hfive : (BitVec.ofNat 16 Config.glyphBytes).toNat = 5 := rfl
  rw [BitVec.toNat_mul, hfive, byteWord_toNat]
  omega

/-- Settles O38: the word is format A with high nibble A, and LD I writes I alone. -/
theorem ldISetsIndex : Obligations.LdISetsIndex := by
  intro nnn s
  refine ⟨?decode, setIndex (addrWord nnn) s, rfl, addrWord_toNat nnn, setIndex_onlyChanges s _⟩
  case decode => exact ofNat_eq_formatA 0xA nnn ▸ decodeWord_encode (.ldI nnn)

/-- Settles O39: the word is format X with selector byte 1E, and the addition of words wraps at 65536. -/
theorem addIWrapsAt16Bits : Obligations.AddIWrapsAt16Bits := by
  intro x s
  refine ⟨?decode, setIndex (s.index + byteWord (readReg s x)) s, rfl, ?sum, setIndex_onlyChanges s _⟩
  case decode => exact ofNat_selector_eq_formatXB 0xF x 0x1E ▸ decodeWord_encode (.addIVx x)
  case sum => rw [setIndex_index, BitVec.toNat_add, byteWord_toNat]

/-- Settles O40: the word is format X with selector byte 29, and the product with the whole byte does not wrap. -/
theorem ldFIsFiveTimesTheByte : Obligations.LdFIsFiveTimesTheByte := by
  intro x s
  refine ⟨?decode, _, rfl, five_mul_byteWord_toNat (readReg s x), setIndex_onlyChanges s _⟩
  case decode => exact ofNat_selector_eq_formatXB 0xF x 0x29 ▸ decodeWord_encode (.ldFVx x)

/-! ## Stores at I -/

section Store

variable {bs : List Byte} {s : State}

theorem storeAtIndex_of_fits (hfits : dataAddr s + bs.length ≤ Config.memSize) :
    storeAtIndex bs s = .next (setMem (Memory.writeBytes s.mem (dataAddr s) bs) s) := by
  obtain ⟨hout, -⟩ | ⟨-, hstore⟩ := storeAtIndex_cases bs s
  · exact absurd hfits (Nat.not_le.mpr hout)
  · exact hstore

variable {a : Nat} (hwf : Memory.wf s.mem = true) (hfits : a + bs.length ≤ Config.memSize)

include hwf hfits

/-- `readByte_store` on the run: byte k of the run stands k above its first address. -/
theorem readByte_store_inside {k : Nat} {b : Byte} (hk : bs[k]? = some b) :
    readByte (setMem (Memory.writeBytes s.mem a bs) s) (a + k) = b := by
  obtain ⟨hlt, -⟩ := List.getElem?_eq_some_iff.mp hk
  rw [readByte_store hwf hfits, if_pos ⟨by omega, by omega⟩, Nat.add_sub_cancel_left, hk, Option.getD_some]

/-- `readByte_store` off the run: no other byte changes. -/
theorem readByte_store_outside {c : Nat} (hc : c < a ∨ a + bs.length ≤ c) :
    readByte (setMem (Memory.writeBytes s.mem a bs) s) c = readByte s c := by
  rw [readByte_store hwf hfits, if_neg (by omega)]

end Store

/-- The digits as numbers: each is below 256, so it is not reduced when it becomes a byte (R93). -/
theorem decimalDigits_spec (b : Byte) :
    ∃ hundreds tens ones : Byte, decimalDigits b = [hundreds, tens, ones] ∧
      hundreds.toNat = b.toNat / 100 ∧ tens.toNat = b.toNat / 10 % 10 ∧ ones.toNat = b.toNat % 10 := by
  refine ⟨_, _, _, rfl, ?hundreds, ?tens, ?ones⟩ <;> rw [BitVec.toNat_ofNat] <;> omega

/-- Settles O41: the word is format X with selector byte 33, and the run stored is the three digits. -/
theorem ldBStoresDecimalDigits : Obligations.LdBStoresDecimalDigits := by
  intro x s hwf hfit
  obtain ⟨hundreds, tens, ones, hdigits, hhundreds, htens, hones⟩ := decimalDigits_spec (readReg s x)
  have hfits : dataAddr s + [hundreds, tens, ones].length ≤ Config.memSize := hfit
  have hexec : exec (.ldBVx x) s = storeAtIndex [hundreds, tens, ones] s := congrArg (storeAtIndex · s) hdigits
  refine ⟨?decode, _, hexec.trans (storeAtIndex_of_fits hfits), ?hundreds, ?tens, ?ones,
    fun a => readByte_store_outside hwf hfits, setMem_onlyChanges s _⟩
  case decode => exact ofNat_selector_eq_formatXB 0xF x 0x33 ▸ decodeWord_encode (.ldBVx x)
  case hundreds => exact (congrArg BitVec.toNat (readByte_store_inside hwf hfits (k := 0) rfl)).trans hhundreds
  case tens => exact (congrArg BitVec.toNat (readByte_store_inside hwf hfits (k := 1) rfl)).trans htens
  case ones => exact (congrArg BitVec.toNat (readByte_store_inside hwf hfits (k := 2) rfl)).trans hones

/-- Settles O42: the word is format X with selector byte 55, and byte r of the run stored is V[r]. -/
theorem blockStoreWritesV0ToVx : Obligations.BlockStoreWritesV0ToVx := by
  intro x s hwf hfit
  have hlen := length_regRun x s
  have hfits : dataAddr s + (regRun x s).length ≤ Config.memSize := hlen ▸ Nat.succ_le_succ hfit
  refine ⟨?decode, _, exec_ldMemVx_of_fits hfit, fun r => readByte_stored_regRun hwf hfit,
    fun a ha => readByte_store_outside hwf hfits ?outside, setMem_onlyChanges s _⟩
  case decode => exact ofNat_selector_eq_formatXB 0xF x 0x55 ▸ decodeWord_encode (.ldMemVx x)
  case outside => omega

/-! ## The load at I -/

/-- `n` bytes of memory from `a` on, lowest address first: what `MemRead` answers for a run that lies inside memory
(20_memory.md R38). -/
def bytesFrom (s : State) (a n : Nat) : List Byte := (List.range n).map fun k => readByte s (a + k)

theorem memRead_of_fits {s : State} {a n : Nat} (hfits : a + n ≤ Config.memSize) :
    memRead s.mem a n = some (bytesFrom s a n) :=
  memRead_eq_some_iff.mpr ⟨hfits, rfl⟩

theorem getElem?_bytesFrom (s : State) (a n k : Nat) :
    (bytesFrom s a n)[k]? = if k < n then some (readByte s (a + k)) else none := by
  rw [bytesFrom, List.getElem?_map]
  by_cases hk : k < n
  · rw [if_pos hk, List.getElem?_range hk, Option.map_some]
  · rw [if_neg hk, List.getElem?_eq_none (List.length_range.trans_le (Nat.not_lt.mp hk)), Option.map_none]

/-- LD Vx, [I] where the run lies inside memory. -/
theorem exec_ldVxMem_of_fits {x : Reg} {s : State} (hfit : dataAddr s + x.val ≤ 4095) :
    exec (.ldVxMem x) s = .next (writeRun (bytesFrom s (dataAddr s) (x.val + 1)) s) := by
  have hread := memRead_of_fits (s := s) (a := dataAddr s) (n := x.val + 1) (Nat.succ_le_succ hfit)
  rw [exec, execLdVxMem, hread]

/-- Settles O43: the word is format X with selector byte 65, and the run written to V0 onwards has byte r for r up to x
and none above. -/
theorem blockLoadReadsV0ToVx : Obligations.BlockLoadReadsV0ToVx := by
  intro x s hfit
  obtain ⟨hregs, hframe⟩ := writeRun_spec s (bytesFrom s (dataAddr s) (x.val + 1))
  refine ⟨?decode, _, exec_ldVxMem_of_fits hfit, fun r => ?loaded, hframe⟩
  case decode => exact ofNat_selector_eq_formatXB 0xF x 0x65 ▸ decodeWord_encode (.ldVxMem x)
  case loaded =>
    have hle : r.val < x.val + 1 ↔ r ≤ x := Nat.lt_succ_iff
    rw [hregs, getElem?_bytesFrom]
    by_cases hr : r ≤ x
    · rw [if_pos hr, if_pos (hle.mpr hr), Option.getD_some]
    · rw [if_neg hr, if_neg (mt hle.mp hr), Option.getD_none]

end Sys2Proof.Machine
end

section
/-! PROOF. RND (44_random.md R97), and the pieces of state each instruction writes (10_state.md R12, 60_exceptions.md
R110): one list of pieces per instruction, the frame of `exec` in terms of it, and its reading piece by piece. -/

namespace Sys2Proof.Machine

variable {s t : State} {i : Instr}

/-! ## Frames of the operations on one piece -/

theorem setFb_onlyChanges (s : State) (fb : Frame) : OnlyChanges [.fb] s (setFb fb s) := by
  intro p hp; cases p <;> simp_all [Agree, readByte]

theorem setDt_onlyChanges (s : State) (b : Byte) : OnlyChanges [.dt] s (setDt b s) := by
  intro p hp; cases p <;> simp_all [Agree, readByte]

theorem setSt_onlyChanges (s : State) (b : Byte) : OnlyChanges [.st] s (setSt b s) := by
  intro p hp; cases p <;> simp_all [Agree, readByte]

theorem setDraws_onlyChanges (s : State) (l : List Byte) (n : Nat) :
    OnlyChanges [.draws, .drawCount] s (setDraws l n s) := by
  intro p hp; cases p <;> simp_all [Agree, readByte]

/-- What changes in two updates one after the other is what changes in either. -/
theorem OnlyChanges.append {l l' : List Part} {u : State} (h : OnlyChanges l s t) (h' : OnlyChanges l' t u) :
    OnlyChanges (l ++ l') s u :=
  (h.mono fun _ hp => List.mem_append_left l' hp).trans (h'.mono fun _ hp => List.mem_append_right l hp)

/-- A piece on which the two states differ is one of the named ones. -/
theorem OnlyChanges.mem_of_not_agree {l : List Part} (h : OnlyChanges l s t) {p : Part} (hp : ¬Agree p s t) : p ∈ l :=
  Decidable.byContradiction fun hl => hp (h p hl)

/-! ## The random byte -/

theorem nextDraw_of_cons {b : Byte} {l : List Byte} (h : s.draws = b :: l) : nextDraw s = b := by
  rw [nextDraw, h]

theorem nextDraw_of_nil (h : s.draws = []) : nextDraw s = Config.drawByte s.drawCount := by
  rw [nextDraw, h]

/-- RND draws before it writes V[x]; the two touch different pieces (R97). -/
theorem rnd_onlyChanges (s : State) (x : Reg) (b : Byte) :
    OnlyChanges [.v, .draws, .drawCount] s (setReg x b (afterDraw s)) :=
  ((setDraws_onlyChanges s _ _).append (setReg_onlyChanges _ x b)).mono (by decide)

/-- Settles O46: the word is format XB with high nibble C, and the byte drawn is the head of the list where there is one
and the free value where the list is empty. -/
theorem rndMasksOneDraw : Obligations.RndMasksOneDraw := by
  intro x nn s
  obtain ⟨hx, hothers, -⟩ := setReg_spec (afterDraw s) x (nextDraw s &&& nn)
  refine ⟨?decode, _, nextDraw s, rfl, fun b l hcons => ⟨nextDraw_of_cons hcons, ?tail⟩,
    fun hnil => ⟨nextDraw_of_nil hnil, ?empty⟩, rfl, hx, hothers, rnd_onlyChanges s x _⟩
  case decode => exact ofNat_eq_formatXB 0xC x nn ▸ decodeWord_encode (.rnd x nn)
  case tail => exact congrArg List.tail hcons
  case empty => exact congrArg List.tail hnil

/-! ## The pieces each instruction writes -/

/-- The three latches a fatal fault writes (60_exceptions.md R111). -/
abbrev latches : List Part := [.halt, .haltPc, .haltInfo]

/-- The pieces an instruction can write, by its completing or by its faulting (10_state.md R12; 60_exceptions.md
R110). -/
def written : Instr → List Part
  | .cls => [.fb]
  | .jp _ | .jpV0 _ | .seByte _ _ | .sneByte _ _ | .seReg _ _ | .sneReg _ _ => [.pc]
  | .ret => [.pc, .sp] ++ latches
  | .call _ => [.pc, .sp, .stack] ++ latches
  | .skp _ | .sknp _ => [.pc] ++ latches
  | .ldByte _ _ | .addByte _ _ | .ldReg _ _ | .orReg _ _ | .andReg _ _ | .xorReg _ _ | .addReg _ _ | .subReg _ _
  | .shr _ | .subnReg _ _ | .shl _ | .ldVxDt _ => [.v]
  | .ldVxK _ => [.pc, .v]
  | .ldI _ | .addIVx _ | .ldFVx _ => [.index]
  | .rnd _ _ => [.v, .draws, .drawCount]
  | .ldDtVx _ => [.dt]
  | .ldStVx _ => [.st]
  | .drw _ _ _ => [.fb, .v] ++ latches
  | .ldBVx _ | .ldMemVx _ => [.mem] ++ latches
  | .ldVxMem _ => [.v] ++ latches

/-- Whatever next state is answered differs from `s` in the named pieces alone. -/
def AnswersWriting (l : List Part) (s : State) (r : Result) : Prop := ∀ t, r = .next t → OnlyChanges l s t

theorem answersWriting_next {l : List Part} (h : OnlyChanges l s t) : AnswersWriting l s (.next t) := by
  rintro u ⟨⟩
  exact h

/-! An instruction that can fault writes its own pieces when it completes and the latches when it faults. -/

theorem answersWriting_completes {l : List Part} (h : OnlyChanges l s t) : AnswersWriting (l ++ latches) s (.next t) :=
  answersWriting_next (h.mono fun _ => List.mem_append_left latches)

theorem answersWriting_raised (l : List Part) (f : FatalFault) (info : Word) (s : State) :
    AnswersWriting (l ++ latches) s (raised f info s) := by
  obtain ⟨-, -, -, hframe⟩ := raise_spec f (instrAddr s) info s
  exact answersWriting_next (hframe.mono fun _ => List.mem_append_right l)

theorem answersWriting_execCall (nnn : Addr) (s : State) :
    AnswersWriting ([.pc, .sp, .stack] ++ latches) s (execCall nnn s) := by
  obtain ⟨-, -, hpush⟩ := push_spec s s.pc
  unfold execCall
  split
  · exact answersWriting_raised _ _ _ s
  · exact answersWriting_completes ((hpush.append (setPc_onlyChanges _ _)).mono (by decide))

theorem answersWriting_execRet (s : State) : AnswersWriting ([.pc, .sp] ++ latches) s (execRet s) := by
  obtain ⟨-, -, hpop⟩ := pop_spec s
  unfold execRet
  split
  · exact answersWriting_raised _ _ _ s
  · exact answersWriting_completes hpop

theorem answersWriting_skipOnKey (x : Reg) (down : Bool) (s : State) :
    AnswersWriting ([.pc] ++ latches) s (skipOnKey x down s) := by
  unfold skipOnKey
  split
  · exact answersWriting_raised _ _ _ s
  · exact answersWriting_completes (skipIf_spec s _).2

theorem answersWriting_storeAtIndex (bs : List Byte) (s : State) :
    AnswersWriting ([.mem] ++ latches) s (storeAtIndex bs s) := by
  obtain ⟨-, heq⟩ | ⟨-, heq⟩ := storeAtIndex_cases bs s <;> rw [heq]
  · exact answersWriting_raised _ _ _ s
  · exact answersWriting_completes (setMem_onlyChanges s _)

theorem answersWriting_execLdVxMem (x : Reg) (s : State) : AnswersWriting ([.v] ++ latches) s (execLdVxMem x s) := by
  unfold execLdVxMem
  split
  · exact answersWriting_raised _ _ _ s
  · exact answersWriting_completes (writeRun_spec s _).2

theorem answersWriting_execDrw (x y : Reg) (n : Nibble) (s : State) :
    AnswersWriting ([.fb, .v] ++ latches) s (execDrw x y n s) := by
  unfold execDrw
  split
  · exact answersWriting_raised _ _ _ s
  · exact answersWriting_completes ((setFb_onlyChanges s _).append (setReg_onlyChanges _ _ _))

theorem answersWriting_execLdVxK (x : Reg) (s : State) : AnswersWriting [.pc, .v] s (execLdVxK x s) := by
  unfold execLdVxK
  split
  · exact answersWriting_next ((setPc_onlyChanges s _).mono (by decide))
  · exact answersWriting_next ((setReg_onlyChanges s x _).mono (by decide))

theorem answersWriting_exec (i : Instr) (s : State) : AnswersWriting (written i) s (exec i s) := by
  cases i with
  | cls => exact answersWriting_next (setFb_onlyChanges s _)
  | jp | jpV0 => exact answersWriting_next (setPc_onlyChanges s _)
  | seByte | sneByte | seReg | sneReg => exact answersWriting_next (skipIf_spec s _).2
  | ldByte x | addByte x | ldReg x | orReg x | andReg x | xorReg x | ldVxDt x =>
    exact answersWriting_next (setReg_onlyChanges s x _)
  | addReg x | subReg x | shr x | subnReg x | shl x => exact answersWriting_next (writeFlagged_spec s x _ _).2
  | ldI | addIVx | ldFVx => exact answersWriting_next (setIndex_onlyChanges s _)
  | rnd x => exact answersWriting_next (rnd_onlyChanges s x _)
  | ldDtVx => exact answersWriting_next (setDt_onlyChanges s _)
  | ldStVx => exact answersWriting_next (setSt_onlyChanges s _)
  | call nnn => exact answersWriting_execCall nnn s
  | ret => exact answersWriting_execRet s
  | skp x | sknp x => exact answersWriting_skipOnKey x _ s
  | drw x y n => exact answersWriting_execDrw x y n s
  | ldVxK x => exact answersWriting_execLdVxK x s
  | ldBVx | ldMemVx => exact answersWriting_storeAtIndex _ s
  | ldVxMem x => exact answersWriting_execLdVxMem x s

/-- The frame of every instruction. -/
theorem exec_onlyChanges (h : exec i s = .next t) : OnlyChanges (written i) s t := answersWriting_exec i s t h

/-! ## The writers of each piece -/

theorem fb_mem_written_iff : .fb ∈ written i ↔ i = .cls ∨ ∃ x y n, i = .drw x y n := by
  cases i <;> simp [written]

theorem mem_mem_written_iff : .mem ∈ written i ↔ ∃ x, i = .ldBVx x ∨ i = .ldMemVx x := by
  cases i <;> simp [written]

theorem stack_mem_written_iff : .stack ∈ written i ↔ ∃ nnn, i = .call nnn := by
  cases i <;> simp [written]

theorem sp_mem_written_iff : .sp ∈ written i ↔ i = .ret ∨ ∃ nnn, i = .call nnn := by
  cases i <;> simp [written]

theorem index_mem_written_iff : .index ∈ written i ↔ (∃ nnn, i = .ldI nnn) ∨ ∃ x, i = .addIVx x ∨ i = .ldFVx x := by
  cases i <;> simp [written]

theorem dt_mem_written_iff : .dt ∈ written i ↔ ∃ x, i = .ldDtVx x := by
  cases i <;> simp [written]

theorem st_mem_written_iff : .st ∈ written i ↔ ∃ x, i = .ldStVx x := by
  cases i <;> simp [written]

theorem draws_mem_written_iff : .draws ∈ written i ∨ .drawCount ∈ written i ↔ ∃ x nn, i = .rnd x nn := by
  cases i <;> simp [written]

/-- The instructions that can fault (60_exceptions.md R110; 92_eei_decisions.md D6, D8). -/
theorem latch_mem_written_iff :
    .halt ∈ written i ∨ .haltPc ∈ written i ∨ .haltInfo ∈ written i ↔
      i = .ret ∨ (∃ nnn, i = .call nnn) ∨ (∃ x y n, i = .drw x y n) ∨
        ∃ x, i = .ldBVx x ∨ i = .ldMemVx x ∨ i = .ldVxMem x ∨ i = .skp x ∨ i = .sknp x := by
  cases i <;> simp [written]

/-- KEY, UNK, the reports and the schedule belong to the other phases and to the environment. -/
theorem environment_not_mem_written :
    .key ∉ written i ∧ .unk ∉ written i ∧ .reports ∉ written i ∧ .schedule ∉ written i := by
  cases i <;> simp [written]

/-- Settles O53: a piece that changed is one the instruction writes, and the writers of each piece are read off the
instructions' lists. -/
theorem eachPieceHasOnlyItsWriters : Obligations.EachPieceHasOnlyItsWriters := by
  intro i s t hexec
  have hframe : OnlyChanges (written i) s t := exec_onlyChanges hexec
  have hwrote {p : Part} (hp : ¬Agree p s t) : p ∈ written i := hframe.mem_of_not_agree hp
  obtain ⟨hkey, hunk, hreports, hschedule⟩ := environment_not_mem_written (i := i)
  refine ⟨?fb, ?mem, ?stack, ?sp, ?index, ?dt, ?st, ?draws, ?latches, hframe .key hkey, hframe .unk hunk,
    hframe .reports hreports, hframe .schedule hschedule⟩
  case fb => exact fun h => fb_mem_written_iff.mp (hwrote h)
  case mem => exact fun ⟨a, h⟩ => mem_mem_written_iff.mp (hwrote fun hall => h (hall a))
  case stack => exact fun h => stack_mem_written_iff.mp (hwrote h)
  case sp => exact fun h => sp_mem_written_iff.mp (hwrote h)
  case index => exact fun h => index_mem_written_iff.mp (hwrote h)
  case dt => exact fun h => dt_mem_written_iff.mp (hwrote h)
  case st => exact fun h => st_mem_written_iff.mp (hwrote h)
  case draws => exact fun h => draws_mem_written_iff.mp (h.imp hwrote hwrote)
  case latches => exact fun h => latch_mem_written_iff.mp (h.imp hwrote (Or.imp hwrote hwrote))

end Sys2Proof.Machine
end

section
/-! PROOF. CLS and DRW (45_display.md R99 to R101): the pixels of `SpriteCovers` are the targets of the blit of the rows
at I, so DRW turns over exactly those; a second DRW of the same rows turns the same pixels over again. -/

namespace Sys2Proof.Machine

/-- Settles O47: the word is the one CLS encodes to, and every pixel of the clear frame is false. -/
theorem clsClearsEveryPixel : Obligations.ClsClearsEveryPixel := by
  refine ⟨?decode, fun s => ⟨setFb Frame.clear s, rfl, ?unlit, setFb_onlyChanges s _⟩⟩
  case decode => exact decodeWord_encode .cls
  case unlit => exact Frame.pixel_clear

variable {s t : State} {a b : Byte} {n : Nat} {px : Fin 64} {py : Fin 32}

/-! ## The pixels under a sprite -/

@[simp] theorem length_bytesFrom (s : State) (c n : Nat) : (bytesFrom s c n).length = n := by
  rw [bytesFrom, List.length_map, List.length_range]

@[simp] theorem getElem_bytesFrom {c k : Nat} (h : k < (bytesFrom s c n).length) :
    (bytesFrom s c n)[k] = readByte s (c + k) := by
  simp only [bytesFrom, List.getElem_map, List.getElem_range]

/-- A pixel is a target when its column and row are the sprite's, modulo the size of the screen (R99). -/
theorem eq_targetPixel_iff {r c : Nat} :
    (px, py) = targetPixel a b r c ↔ px.val = (a.toNat + c) % 64 ∧ py.val = (b.toNat + r) % 32 := by
  simp only [targetPixel, Prod.mk.injEq, Fin.ext_iff, Fin.val_ofNat]

theorem mem_spriteTargets_bytesFrom_iff :
    (px, py) ∈ spriteTargets a b 0 (bytesFrom s (dataAddr s) n) ↔ SpriteCovers s a b n px py := by
  simp only [mem_spriteTargets, length_bytesFrom, getElem_bytesFrom, exists_prop, exists_and_left, eq_targetPixel_iff,
    SpriteCovers, Nat.zero_add]

/-- What is covered depends on I and on memory alone, which drawing does not write. -/
theorem spriteCovers_of_onlyChanges (h : OnlyChanges [.v, .fb] s t) :
    SpriteCovers t a b n px py ↔ SpriteCovers s a b n px py := by
  have haddr : dataAddr t = dataAddr s := congrArg BitVec.toNat (h .index (by decide))
  have hmem : ∀ c, readByte t c = readByte s c := h .mem (by decide)
  simp only [SpriteCovers, haddr, hmem]

/-- A byte that is not 0 has a set bit in one of the eight columns of a sprite row. -/
theorem byte_ne_zero_iff {row : Byte} : row ≠ 0 ↔ ∃ c < 8, row.getLsbD (7 - c) = true := by
  constructor
  · intro hrow
    by_contra! hclear
    refine hrow (BitVec.eq_of_getLsbD_eq fun i hi => ?_)
    have hbit := hclear (7 - i) (by omega)
    rw [show 7 - (7 - i) = i by omega] at hbit
    simpa using hbit
  · rintro ⟨c, -, hbit⟩ rfl
    simp at hbit

/-- A sprite covers some pixel exactly when one of its rows has a set bit. -/
theorem exists_spriteCovers_iff :
    (∃ px py, SpriteCovers s a b n px py) ↔ ∃ r < n, readByte s (dataAddr s + r) ≠ 0 := by
  constructor
  · rintro ⟨px, py, r, c, hr, hc, hbit, -⟩
    exact ⟨r, hr, byte_ne_zero_iff.mpr ⟨c, hc, hbit⟩⟩
  · rintro ⟨r, hr, hrow⟩
    obtain ⟨c, hc, hbit⟩ := byte_ne_zero_iff.mp hrow
    exact ⟨_, _, r, c, hr, hc, hbit, eq_targetPixel_iff.mp rfl⟩

/-! ## One draw -/

/-- `blit_spec` for the rows at I, in terms of the pixels they cover. -/
theorem blit_bytesFrom_spec (s : State) (a b : Byte) (hn : n ≤ 32) :
    (∀ px py, Frame.pixel (blit s.fb a b (bytesFrom s (dataAddr s) n)).1 px py = true ↔
      (Frame.pixel s.fb px py = true ↔ ¬SpriteCovers s a b n px py)) ∧
    ((blit s.fb a b (bytesFrom s (dataAddr s) n)).2 = true ↔
      ∃ px py, SpriteCovers s a b n px py ∧ Frame.pixel s.fb px py = true) := by
  obtain ⟨hpixels, hcollision⟩ := blit_spec s.fb a b ((length_bytesFrom s (dataAddr s) n).trans_le hn)
  refine ⟨fun px py => ?pixels, ?collision⟩
  case pixels =>
    rw [hpixels, ← mem_spriteTargets_bytesFrom_iff]
    split <;> simp [*]
  case collision => simp only [hcollision, Prod.exists, mem_spriteTargets_bytesFrom_iff]

/-- DRW where the rows lie inside memory. -/
theorem exec_drw_of_fits {x y : Reg} {n : Nibble} (hfit : dataAddr s + n.toNat ≤ 4096) :
    exec (.drw x y n) s =
      .next (setReg 15 (flagByte (blit s.fb (readReg s x) (readReg s y) (bytesFrom s (dataAddr s) n.toNat)).2)
        (setFb (blit s.fb (readReg s x) (readReg s y) (bytesFrom s (dataAddr s) n.toNat)).1 s)) := by
  rw [exec, execDrw, memRead_of_fits hfit]

/-- Settles O48: the word is format XYN with high nibble D, the frame is that of the blit, and VF, written last, is the
flag of its collision. -/
theorem drwTurnsOverTheSpritesPixels : Obligations.DrwTurnsOverTheSpritesPixels := by
  intro x y n s hfit
  obtain ⟨hpixels, hcollision⟩ := blit_bytesFrom_spec s (readReg s x) (readReg s y) (n := n.toNat) (by omega)
  have hexec := exec_drw_of_fits (x := x) (y := y) hfit
  generalize blit s.fb (readReg s x) (readReg s y) (bytesFrom s (dataAddr s) n.toNat) = drawn at *
  obtain ⟨hflag, hothers, hframe⟩ := setReg_spec (setFb drawn.1 s) 15 (flagByte drawn.2)
  refine ⟨?decode, _, hexec, hpixels, fun hlit => ?hit, fun hunlit => ?miss, hothers,
    ((setFb_onlyChanges s drawn.1).append hframe).mono (by decide)⟩
  case decode => exact ofNat_eq_formatXYN 0xD x y n ▸ decodeWord_encode (.drw x y n)
  case hit => rw [hflag, hcollision.mpr hlit]; rfl
  case miss => rw [hflag, Bool.eq_false_iff.mpr (mt hcollision.mp hunlit)]; rfl

/-! ## Two draws -/

/-- Settles O49: the second draw reads the same coordinates and rows as the first, so it covers the same pixels; on a
clear frame these are the pixels the first draw lit. -/
theorem drawingTwiceRestoresTheFrame : Obligations.DrawingTwiceRestoresTheFrame := by
  intro x y n s hx hy hfit
  obtain ⟨-, t, hfirst, hpixels, -, hmiss, hothers, hframe⟩ := drwTurnsOverTheSpritesPixels x y n s hfit
  have haddr : dataAddr t = dataAddr s := congrArg BitVec.toNat (hframe .index (by decide))
  obtain ⟨-, u, hsecond, hpixels', hhit', hmiss', -, -⟩ := drwTurnsOverTheSpritesPixels x y n t (haddr ▸ hfit)
  simp only [hothers x hx, hothers y hy, spriteCovers_of_onlyChanges hframe] at hpixels' hhit' hmiss'
  refine ⟨t, u, hfirst, hsecond, Frame.ext_pixel fun px py => ?restored, fun hclear => ⟨hmiss ?unlit, ?collision⟩⟩
  case restored =>
    rw [Bool.eq_iff_iff, hpixels', hpixels]
    tauto
  case unlit => simp [hclear]
  case collision =>
    have hlit : ∀ px py, Frame.pixel t.fb px py = true ↔ SpriteCovers s (readReg s x) (readReg s y) n.toNat px py := by
      simpa [hclear] using hpixels
    simp only [hlit, and_self, exists_spriteCovers_iff] at hhit' hmiss'
    refine ⟨fun hone => ?_, hhit'⟩
    by_contra hblank
    exact absurd (hone.symm.trans (hmiss' hblank)) (by decide)

end Sys2Proof.Machine
end

section
/-! PROOF. The timer moves (46_timers.md R104 to R106): LD Vx, DT is a register load, and LD DT, Vx and LD ST, Vx each
write one timer alone. -/

namespace Sys2Proof.Machine

/-- Settles O50: the words are format X with high nibble F and the selector bytes 07, 15 and 18, and each instruction
is one write, of V[x] by `setReg_spec` and of a timer by the timer's frame. -/
theorem timerMoves : Obligations.TimerMoves := by
  intro x s
  refine ⟨?decodeRead, ?decodeDelay, ?decodeSound, ⟨setReg x s.dt s, rfl, setReg_spec s x s.dt⟩,
    ⟨setDt (readReg s x) s, rfl, setDt_dt s (readReg s x), setDt_onlyChanges s _⟩,
    ⟨setSt (readReg s x) s, rfl, setSt_st s (readReg s x), setSt_onlyChanges s _⟩⟩
  case decodeRead => exact ofNat_selector_eq_formatXB 0xF x 0x07 ▸ decodeWord_encode (.ldVxDt x)
  case decodeDelay => exact ofNat_selector_eq_formatXB 0xF x 0x15 ▸ decodeWord_encode (.ldDtVx x)
  case decodeSound => exact ofNat_selector_eq_formatXB 0xF x 0x18 ▸ decodeWord_encode (.ldStVx x)

end Sys2Proof.Machine
end

section
/-! PROOF. The key wait (47_key_wait.md R107, R108): with no key down LD Vx, K undoes the advance of its Cycle, so that
the Cycle changes nothing, and else it is one write of the least key that is down. -/

namespace Sys2Proof.Machine

variable {s c : State} {x : Reg} {w : Word} {i : Instr}

/-! ## The least key that is down -/

/-- The search goes through the keys in rising order, so it answers the key all of whose predecessors are up. -/
theorem leastKeyDown_eq_some_iff {k : Key} :
    leastKeyDown s = some k ↔ keyDown s k = true ∧ ∀ j, j < k → keyDown s j = false := by
  rw [leastKeyDown, List.find?_eq_some_iff_getElem]
  refine and_congr_right fun _ => ⟨?_, fun hlower => ⟨k.val, by simp, by simp, fun j hj => ?_⟩⟩
  · rintro ⟨n, hn, rfl, hlower⟩ j hj
    simpa using hlower j.val (by simpa [Fin.lt_def] using hj)
  · simpa using hlower ⟨j, hj.trans k.isLt⟩ hj

/-! ## The two branches of LD Vx, K (R107) -/

theorem exec_ldVxK_of_no_key (hup : ∀ k, keyDown s k = false) :
    exec (.ldVxK x) s = .next (setPc (s.pc - 2) s) := by
  rw [exec, execLdVxK, (leastKeyDown_eq_none_iff s).mpr hup]

theorem exec_ldVxK_of_least {k : Key} (hdown : keyDown s k = true) (hlower : ∀ j, j < k → keyDown s j = false) :
    exec (.ldVxK x) s = .next (setReg x (BitVec.ofNat 8 k.val) s) := by
  rw [exec, execLdVxK, leastKeyDown_eq_some_iff.mpr ⟨hdown, hlower⟩]

theorem decodeWord_ldVxK (x : Reg) : decodeWord (BitVec.ofNat 16 (0xF00A + 0x100 * x.val)) = .ok (.ldVxK x) :=
  ofNat_selector_eq_formatXB 0xF x 0x0A ▸ decodeWord_encode (.ldVxK x)

/-- Settles O51: the two branches are those of `leastKeyDown`, and each is one write with its frame; the number of a key
fits in a byte. -/
theorem keyWaitRetriesOrStoresTheLeastKey : Obligations.KeyWaitRetriesOrStoresTheLeastKey := by
  intro x s
  refine ⟨decodeWord_ldVxK x, fun hup => ?retry, fun k hdown hlower => ?store⟩
  case retry => exact ⟨_, exec_ldVxK_of_no_key hup, setPc_pc s _, setPc_onlyChanges s _⟩
  case store =>
    obtain ⟨hvalue, hothers, hframe⟩ := setReg_spec s x (BitVec.ofNat 8 k.val)
    refine ⟨_, exec_ldVxK_of_least hdown hlower, ?_, hothers, hframe⟩
    rw [hvalue, BitVec.toNat_ofNat]
    omega

/-! ## A Cycle of a known word -/

/-- The word at pc is the one a fetch answers (20_memory.md R36). -/
theorem fetchWord_of_wordAtPc (hword : WordAtPc s w) : fetchWord s = some w := by
  obtain ⟨hpc, hw⟩ := hword
  exact fetchWord_eq_some_iff.mpr ⟨hpc, BitVec.eq_of_toNat_eq (hw.trans (wordOfBytes_toNat _ _).symm)⟩

/-- A running machine's Cycle of a word that decodes comes to its execute phase (10_state.md R17). -/
theorem cyclePhases_of_decodes (hrun : s.halt = 0) (hword : WordAtPc s w) (hdecode : decodeWord w = .ok i) :
    cyclePhases s = .execute i (advance s) := by
  simp [cyclePhases, hrun, fetchWord_of_wordAtPc hword, hdecode]

theorem CycleStarts.wordAtPc (h : CycleStarts s c) (hword : WordAtPc s w) : WordAtPc c w := by
  have hpc : c.pc = s.pc := h.onlyChanges .pc (by decide)
  have hmem : ∀ a, readByte c a = readByte s a := h.onlyChanges .mem (by decide)
  simpa only [WordAtPc, hpc, hmem] using hword

/-- A step that is a Cycle of a word that decodes executes its instruction, pc advanced. -/
theorem CycleStarts.step_of_decodes (h : CycleStarts s c) (hrun : s.halt = 0) (hword : WordAtPc s w)
    (hdecode : decodeWord w = .ok i) : step s = exec i (advance c) := by
  have hhalt : c.halt = s.halt := h.onlyChanges .halt (by decide)
  obtain ⟨-, hexecute⟩ := h.step_eq
  exact hexecute i _ (cyclePhases_of_decodes (hhalt.trans hrun) (h.wordAtPc hword) hdecode)

/-! ## The stalled Cycle (R108) -/

/-- Going back over the advance gives the state it was made from. -/
theorem setPc_sub_two_advance (s : State) : setPc ((advance s).pc - 2) (advance s) = s := by
  rw [advance_pc, BitVec.add_sub_cancel]
  rfl

/-- Settles O52: the Cycle executes LD Vx, K with the keys of `s`, all up, and the retry undoes the Cycle's advance. -/
theorem stalledCycleIsAFixedPoint : Obligations.StalledCycleIsAFixedPoint := by
  intro s c x hstart hrun hword hup
  have hkey : (advance c).key = s.key := hstart.onlyChanges .key (by decide)
  have hup' : ∀ k, keyDown (advance c) k = false := by simpa only [keyDown, hkey] using hup
  calc step s = exec (.ldVxK x) (advance c) := hstart.step_of_decodes hrun hword (decodeWord_ldVxK x)
    _ = .next (setPc ((advance c).pc - 2) (advance c)) := exec_ldVxK_of_no_key hup'
    _ = .next c := by rw [setPc_sub_two_advance]

end Sys2Proof.Machine
end

section
/-! PROOF. The outcomes of the instructions that branch, said once: each faults where its condition fails and completes
where it holds (60_exceptions.md R109 to R111). So every instruction answers a next state, and a transfer or a key skip
whose condition fails halts the machine. -/

namespace Sys2Proof.Machine

theorem execCall_cases (nnn : Addr) (s : State) :
    (s.sp = 15 ∧ execCall nnn s = raised .stackOverflow (addrWord nnn) s) ∨
      (s.sp ≠ 15 ∧ execCall nnn s = .next (setPc (addrWord nnn) (push s.pc s))) := by
  unfold execCall
  by_cases h : s.sp = 15
  · exact .inl ⟨h, if_pos h⟩
  · exact .inr ⟨h, if_neg h⟩

theorem execRet_cases (s : State) :
    (s.sp = 0 ∧ execRet s = raised .stackUnderflow 0 s) ∨ (s.sp ≠ 0 ∧ execRet s = .next (pop s)) := by
  unfold execRet
  by_cases h : s.sp = 0
  · exact .inl ⟨h, if_pos h⟩
  · exact .inr ⟨h, if_neg h⟩

theorem skipOnKey_cases (x : Reg) (down : Bool) (s : State) :
    (15 < (readReg s x).toNat ∧
        skipOnKey x down s = raised .keyIndexOutOfRange (byteWord (readReg s x)) s) ∨
      ∃ k : Key, (readReg s x).toNat = k.val ∧ skipOnKey x down s = .next (skipIf (keyDown s k == down) s) := by
  unfold skipOnKey
  cases h : keyOfByte (readReg s x) with
  | none => exact .inl ⟨(keyOfByte_eq_none_iff _).mp h, rfl⟩
  | some k => exact .inr ⟨k, (keyOfByte_eq_some_iff _ k).mp h, rfl⟩

theorem execLdVxMem_cases (x : Reg) (s : State) :
    (Config.memSize < dataAddr s + (x.val + 1) ∧ execLdVxMem x s = raised .addressOutOfRange s.index s) ∨
      (dataAddr s + (x.val + 1) ≤ Config.memSize ∧
        execLdVxMem x s = .next (writeRun (bytesFrom s (dataAddr s) (x.val + 1)) s)) := by
  unfold execLdVxMem
  cases h : memRead s.mem (dataAddr s) (x.val + 1) with
  | none => exact .inl ⟨memRead_eq_none_iff.mp h, rfl⟩
  | some bs =>
    obtain ⟨hfits, rfl⟩ := memRead_eq_some_iff.mp h
    exact .inr ⟨hfits, rfl⟩

theorem execDrw_cases (x y : Reg) (n : Nibble) (s : State) :
    (Config.memSize < dataAddr s + n.toNat ∧ execDrw x y n s = raised .addressOutOfRange s.index s) ∨
      (dataAddr s + n.toNat ≤ Config.memSize ∧
        ∃ drawn : Frame × Bool, execDrw x y n s = .next (setReg 15 (flagByte drawn.2) (setFb drawn.1 s))) := by
  unfold execDrw
  cases h : memRead s.mem (dataAddr s) n.toNat with
  | none => exact .inl ⟨memRead_eq_none_iff.mp h, rfl⟩
  | some rows => exact .inr ⟨(memRead_eq_some_iff.mp h).1, _, rfl⟩

/-- The key wait does not fault: it goes back over the advance or loads one register. -/
theorem execLdVxK_cases (x : Reg) (s : State) :
    execLdVxK x s = .next (setPc (s.pc - 2) s) ∨ ∃ b, execLdVxK x s = .next (setReg x b s) := by
  unfold execLdVxK
  cases leastKeyDown s with
  | none => exact .inl rfl
  | some k => exact .inr ⟨_, rfl⟩

/-! ## Every instruction answers -/

/-- A fatal fault is an answer too: the halted next state (log 6). -/
theorem exec_answers (i : Instr) (s : State) : ∃ t, exec i s = .next t := by
  cases i with
  | call nnn => obtain ⟨-, heq⟩ | ⟨-, heq⟩ := execCall_cases nnn s <;> exact ⟨_, heq⟩
  | ret => obtain ⟨-, heq⟩ | ⟨-, heq⟩ := execRet_cases s <;> exact ⟨_, heq⟩
  | skp x | sknp x => obtain ⟨-, heq⟩ | ⟨k, -, heq⟩ := skipOnKey_cases x _ s <;> exact ⟨_, heq⟩
  | drw x y n => obtain ⟨-, heq⟩ | ⟨-, drawn, heq⟩ := execDrw_cases x y n s <;> exact ⟨_, heq⟩
  | ldVxK x => obtain heq | ⟨b, heq⟩ := execLdVxK_cases x s <;> exact ⟨_, heq⟩
  | ldBVx | ldMemVx => obtain ⟨-, heq⟩ | ⟨-, heq⟩ := storeAtIndex_cases _ s <;> exact ⟨_, heq⟩
  | ldVxMem x => obtain ⟨-, heq⟩ | ⟨-, heq⟩ := execLdVxMem_cases x s <;> exact ⟨_, heq⟩
  | cls | jp | jpV0 | seByte | sneByte | seReg | sneReg | ldByte | addByte | ldReg | orReg | andReg | xorReg | addReg
  | subReg | shr | subnReg | shl | ldI | rnd | ldVxDt | ldDtVx | ldStVx | addIVx | ldFVx => exact ⟨_, rfl⟩

/-- Settles O8: a step is settled or executes an instruction, and every instruction answers. -/
theorem everyStepAnswersNext : Obligations.EveryStepAnswersNext := by
  intro s
  unfold step
  split
  next t _ => exact ⟨t, rfl⟩
  next i t _ => exact exec_answers i t

/-! ## The faults -/

/-- Where a meaning raises a fault, its next state is halted by that fault (R111). -/
theorem halts_of_eq_raised {r : Result} {f : FatalFault} {info : Word} {s : State} (h : r = raised f info s) :
    ∃ t, r = .next t ∧ Halted (faultCode f) (s.pc - 2) info s t :=
  h ▸ raised_spec f info s

theorem skipOnKey_of_names_none {x : Reg} {s : State} (h : 15 < (readReg s x).toNat) (down : Bool) :
    skipOnKey x down s = raised .keyIndexOutOfRange (byteWord (readReg s x)) s := by
  obtain ⟨-, heq⟩ | ⟨k, hk, -⟩ := skipOnKey_cases x down s
  · exact heq
  · omega

theorem storeAtIndex_of_beyond {bs : List Byte} {s : State} (h : Config.memSize < dataAddr s + bs.length) :
    storeAtIndex bs s = raised .addressOutOfRange s.index s := by
  obtain ⟨-, heq⟩ | ⟨hfits, -⟩ := storeAtIndex_cases bs s
  · exact heq
  · exact absurd h (Nat.not_lt.mpr hfits)

theorem execLdVxMem_of_beyond {x : Reg} {s : State} (h : Config.memSize < dataAddr s + (x.val + 1)) :
    execLdVxMem x s = raised .addressOutOfRange s.index s := by
  obtain ⟨-, heq⟩ | ⟨hfits, -⟩ := execLdVxMem_cases x s
  · exact heq
  · exact absurd h (Nat.not_lt.mpr hfits)

theorem execDrw_of_beyond {x y : Reg} {n : Nibble} {s : State} (h : Config.memSize < dataAddr s + n.toNat) :
    execDrw x y n s = raised .addressOutOfRange s.index s := by
  obtain ⟨-, heq⟩ | ⟨hfits, -⟩ := execDrw_cases x y n s
  · exact heq
  · exact absurd h (Nat.not_lt.mpr hfits)

/-- Settles O30: a value above 15 names no key, so both skips take the fault. -/
theorem keyIndexAbove15Halts : Obligations.KeyIndexAbove15Halts := by
  intro x s habove
  exact ⟨halts_of_eq_raised (skipOnKey_of_names_none habove true),
    halts_of_eq_raised (skipOnKey_of_names_none habove false)⟩

/-- Settles O44: LD B moves 3 bytes, the block transfers x + 1 and DRW n, and each takes the fault with I as its
information when its run does not lie inside memory. -/
theorem transfersBeyondMemoryHalt : Obligations.TransfersBeyondMemoryHalt := by
  intro x y n s
  refine ⟨fun h => halts_of_eq_raised (storeAtIndex_of_beyond h),
    fun h => halts_of_eq_raised (storeAtIndex_of_beyond ?run),
    fun h => halts_of_eq_raised (execLdVxMem_of_beyond (Nat.succ_lt_succ h)),
    fun h => halts_of_eq_raised (execDrw_of_beyond h)⟩
  case run => rw [length_regRun]; exact Nat.succ_lt_succ h

end Sys2Proof.Machine
end

section
/-! PROOF. The step (10_state.md R17, 60_exceptions.md R123): what a Cycle comes to in each of its phases, up to the
execution of the instruction it decoded. -/

namespace Sys2Proof

/-- Settles O5: ten of the words are what their instruction encodes to; the other two have bits set that decode
ignores. -/
theorem sampleWordsOfEveryFamily : Obligations.SampleWordsOfEveryFamily :=
  ⟨decodeWord_encode (.jp 0x204), decodeWord_encode (.call 0x300), decodeWord_encode .ret,
    decodeWord_formatXYN_seReg 10 11 7, decodeWord_encode (.skp 2), decodeWord_encode (.ldByte 10 0x2B),
    decodeWord_formatXYN_shr 1 15, decodeWord_encode (.ldVxMem 2), decodeWord_encode (.rnd 3 0x0F),
    decodeWord_encode (.drw 0 1 2), decodeWord_encode (.ldVxDt 4), decodeWord_encode (.ldVxK 3)⟩

/-- Two bytes that decode to an instruction are a word that does (30_encoding.md R61). -/
theorem decodeWord_of_decode_pair {hi lo : Byte} {i : Instr} (h : decode [hi, lo] = .ok (i, [])) :
    decodeWord (wordOfBytes hi lo) = .ok i := by
  simp only [decode] at h
  split at h <;> cases h
  assumption

end Sys2Proof

namespace Sys2Proof.Machine

variable {s c t : State} {w : Word} {i : Instr}

/-! ## A Cycle that ends before its execute phase -/

theorem cyclePhases_of_halted (h : s.halt ≠ 0) : cyclePhases s = .settled s := if_pos h

theorem cyclePhases_of_fetch_beyond (hrun : s.halt = 0) (hpc : 4094 < s.pc.toNat) :
    cyclePhases s = .settled (raise .addressOutOfRange s.pc s.pc s) := by
  simp [cyclePhases, hrun, fetchWord_eq_none_iff.mpr hpc]

theorem cyclePhases_of_unknown (hrun : s.halt = 0) (hword : WordAtPc s w) {g : Unknown}
    (hdecode : decodeWord w = .error g) : cyclePhases s = .settled (reportUnknown s.pc w (advance s)) := by
  simp [cyclePhases, hrun, fetchWord_of_wordAtPc hword, hdecode]

/-- A Cycle acts on a state with the same HALT and pc. -/
theorem CycleStarts.halt_eq (h : CycleStarts s c) : c.halt = s.halt := h.onlyChanges .halt (by decide)

theorem CycleStarts.pc_eq (h : CycleStarts s c) : c.pc = s.pc := h.onlyChanges .pc (by decide)

/-- The word at pc given as its two bytes. -/
theorem wordAtPc_wordOfBytes (hpc : s.pc.toNat ≤ 4094) :
    WordAtPc s (wordOfBytes (readByte s s.pc.toNat) (readByte s (s.pc.toNat + 1))) :=
  ⟨hpc, wordOfBytes_toNat _ _⟩

/-- Settles O6: the bytes at pc are the word a Cycle fetches, and a Cycle of a word that decodes executes it. -/
theorem stepRunsTheDecodedInstruction : Obligations.StepRunsTheDecodedInstruction := by
  intro s i rest hrun hpc hdecode
  have hstep {c : State} (hstart : CycleStarts s c) : step s = exec i (advance c) :=
    hstart.step_of_decodes hrun (wordAtPc_wordOfBytes hpc) (decodeWord_of_decode_pair hdecode)
  exact ⟨fun hnil => hstep (.inl ⟨hnil, rfl⟩), fun hcons => hstep (.inr ⟨rest, hcons, rfl⟩), advance_pc s,
    advance_onlyChanges s⟩

/-- Settles O9: the halted test comes first and settles the Cycle on the state it acts on. -/
theorem haltedCycleChangesNothing : Obligations.HaltedCycleChangesNothing := by
  intro s c hstart hhalted
  obtain ⟨hsettled, -⟩ := hstart.step_eq
  exact hsettled c (cyclePhases_of_halted (hstart.halt_eq.trans_ne hhalted))

/-- Settles O10: the fetch answers nothing, and the fault is raised on the state before the advance. -/
theorem fetchBeyondMemoryHalts : Obligations.FetchBeyondMemoryHalts := by
  intro s c hstart hrun hpc
  obtain ⟨hsettled, -⟩ := hstart.step_eq
  rw [← hstart.pc_eq] at hpc ⊢
  exact ⟨_, hsettled _ (cyclePhases_of_fetch_beyond (hstart.halt_eq.trans hrun) hpc), raise_spec _ c.pc c.pc c⟩

/-- Settles O11: the Cycle ends in the report of the word, made after the advance. -/
theorem unknownWordIsAReportedNoOp : Obligations.UnknownWordIsAReportedNoOp := by
  intro s c w g hstart hrun hword hdecode
  obtain ⟨hsettled, -⟩ := hstart.step_eq
  have hreports : c.reports = s.reports := hstart.onlyChanges .reports (by decide)
  obtain ⟨hunk, hreport, hframe⟩ := reportUnknown_spec c.pc w (advance c)
  have hphases := cyclePhases_of_unknown (hstart.halt_eq.trans hrun) (hstart.wordAtPc hword) hdecode
  refine ⟨_, hsettled _ hphases, hunk, ?report, ?pc, ((advance_onlyChanges c).append hframe).mono (by decide)⟩
  case report => rw [hreport, ← hstart.pc_eq, ← hreports]; rfl
  case pc => rw [← hstart.pc_eq]; rfl

/-! ## A finished program -/

/-- The word of a jump to `a`, as a number, and the address it jumps to (40_control_transfer.md R65). -/
theorem jumpWord_spec {a : Word} (ha : a.toNat ≤ 4094) :
    (formatA 0x1 (BitVec.ofNat 12 a.toNat)).toNat = 0x1000 + a.toNat ∧ addrWord (BitVec.ofNat 12 a.toNat) = a := by
  have hnnn : (BitVec.ofNat 12 a.toNat).toNat = a.toNat := by rw [BitVec.toNat_ofNat]; omega
  exact ⟨by rw [formatA_toNat, hnnn]; rfl, BitVec.eq_of_toNat_eq (by rw [addrWord_toNat, hnnn])⟩

/-- Settles O59: the word is JP to its own address, which writes to pc the value it had before the advance. -/
theorem finishedProgramIsAFixedPoint : Obligations.FinishedProgramIsAFixedPoint := by
  intro s c hstart ⟨hrun, hpc, hbytes⟩
  obtain ⟨hjump, htarget⟩ := jumpWord_spec hpc
  calc step s = exec (.jp (BitVec.ofNat 12 s.pc.toNat)) (advance c) :=
        hstart.step_of_decodes hrun ⟨hpc, hjump.trans hbytes.symm⟩ (decodeWord_encode (.jp _))
    _ = .next (setPc (addrWord (BitVec.ofNat 12 s.pc.toNat)) (advance c)) := rfl
    _ = .next c := by rw [htarget, ← hstart.pc_eq]; rfl

end Sys2Proof.Machine
end

section
/-! PROOF. CALL and RET (40_control_transfer.md R67, R68): one call, one return, the two faults of the stack, and the
nesting of 95_test_vectors.md S5. -/

namespace Sys2Proof.Machine

variable {s t : State}

/-! ## One call and one return -/

theorem exec_call_of_free (hsp : s.sp.val < 15) (nnn : Addr) :
    exec (.call nnn) s = .next (setPc (addrWord nnn) (push s.pc s)) := by
  obtain ⟨hfull, -⟩ | ⟨-, heq⟩ := execCall_cases nnn s
  · exact absurd hsp (by rw [hfull]; decide)
  · exact heq

theorem exec_ret_of_nonempty (hsp : s.sp.val ≠ 0) : exec .ret s = .next (pop s) := by
  obtain ⟨hempty, -⟩ | ⟨-, heq⟩ := execRet_cases s
  · exact absurd (congrArg Fin.val hempty) hsp
  · exact heq

/-- Settles O22: the word is format A with high nibble 2, and the call is a push of pc and a jump. -/
theorem callPushesAndJumps : Obligations.CallPushesAndJumps := by
  intro nnn s hsp
  obtain ⟨hpush, hslots, hframe⟩ := push_spec s s.pc
  refine ⟨?decode, _, exec_call_of_free hsp nnn, ?sp, ?top, fun k hk => ?others, addrWord_toNat nnn,
    (hframe.append (setPc_onlyChanges _ _)).mono (by decide)⟩
  case decode => exact ofNat_eq_formatA 0x2 nnn ▸ decodeWord_encode (.call nnn)
  case sp => rw [setPc_sp, hpush]; omega
  case top => exact (hslots _).trans (if_pos hpush)
  case others => exact (hslots k).trans (if_neg fun h => hk (h.trans hpush.symm))

/-- Settles O23: with sp = 15 the call takes the fault, the target as its information. -/
theorem callAtDepth15Overflows : Obligations.CallAtDepth15Overflows := by
  intro nnn s hsp
  obtain ⟨-, heq⟩ | ⟨hfree, -⟩ := execCall_cases nnn s
  · exact halts_of_eq_raised heq
  · exact absurd (Fin.ext hsp) hfree

/-- Settles O24: the word is the one RET encodes to, and the return is a pop. -/
theorem retPops : Obligations.RetPops := by
  refine ⟨decodeWord_encode .ret, fun s hsp => ?_⟩
  obtain ⟨hpc, hpop, hframe⟩ := pop_spec s
  exact ⟨_, exec_ret_of_nonempty hsp, hpc, by rw [hpop]; omega, hframe⟩

/-- Settles O25: with sp = 0 the return takes the fault. -/
theorem retOnEmptyStackUnderflows : Obligations.RetOnEmptyStackUnderflows := by
  intro s hsp
  obtain ⟨-, heq⟩ | ⟨hnonempty, -⟩ := execRet_cases s
  · exact halts_of_eq_raised heq
  · exact absurd (Fin.ext hsp) hnonempty

/-! ## Runs of instructions -/

theorem runInstrs_cons_of_next {i : Instr} (hexec : exec i (advance s) = .next t) (hrun : t.halt = 0)
    (is : List Instr) : runInstrs (i :: is) s = runInstrs is t := by
  simp [runInstrs, hexec, hrun]

theorem runInstrs_append (is js : List Instr) (s : State) :
    runInstrs (is ++ js) s = (runInstrs is s).bind (runInstrs js) := by
  induction is generalizing s with
  | nil => rfl
  | cons i is ih =>
    obtain ⟨t, hexec⟩ := exec_answers i (advance s)
    by_cases hrun : t.halt = 0
    · simp only [List.cons_append, runInstrs_cons_of_next hexec hrun, ih]
    · simp only [List.cons_append, runInstrs, hexec, if_neg hrun, Option.bind_none]

/-- A piece that is as before after all was not changed. -/
theorem OnlyChanges.erase {p : Part} {l : List Part} (h : OnlyChanges (p :: l) s t) (hp : Agree p s t) :
    OnlyChanges l s t := by
  intro q hq
  by_cases hqp : q = p
  · exact hqp ▸ hp
  · exact h q (by simp [hqp, hq])

/-! ## Nested calls (S5) -/

/-- What calls and their returns leave as it was: everything but pc and the slots above the one sp names. -/
def StackRestored (s t : State) : Prop :=
  OnlyChanges [.pc, .stack] s t ∧ ∀ k : Fin 16, k ≤ s.sp → t.stack[k] = s.stack[k]

theorem stackRestored_refl (s : State) : StackRestored s s := ⟨OnlyChanges.refl _ s, fun _ _ => rfl⟩

/-- The state after one CALL, run with its advance, where a slot is free. -/
theorem advance_call (hsp : s.sp.val < 15) (nnn : Addr) :
    ∃ t, exec (.call nnn) (advance s) = .next t ∧ t.sp.val = s.sp.val + 1 ∧ t.stack[t.sp] = s.pc + 2 ∧
      (∀ k : Fin 16, k ≠ t.sp → t.stack[k] = s.stack[k]) ∧ OnlyChanges [.sp, .pc, .stack] s t := by
  obtain ⟨-, t, hexec, htsp, htop, hothers, -, hframe⟩ := callPushesAndJumps nnn (advance s) hsp
  exact ⟨t, hexec, htsp, htop, hothers, ((advance_onlyChanges s).append hframe).mono (by decide)⟩

/-- A return to a CALL after everything in between has restored the stack. -/
theorem advance_ret_restores {c : State} (hsp : c.sp.val = s.sp.val + 1) (htop : c.stack[c.sp] = s.pc + 2)
    (hothers : ∀ k : Fin 16, k ≠ c.sp → c.stack[k] = s.stack[k]) (hcall : OnlyChanges [.sp, .pc, .stack] s c)
    (hnested : StackRestored c t) :
    ∃ u, exec .ret (advance t) = .next u ∧ u.pc = s.pc + 2 ∧ StackRestored s u := by
  obtain ⟨hframe, hslots⟩ := hnested
  have htsp : t.sp = c.sp := hframe .sp (by decide)
  obtain ⟨-, hret⟩ := retPops
  obtain ⟨u, hexec, hpc, husp, hretFrame⟩ := hret (advance t) (by show t.sp.val ≠ 0; omega)
  have hall : OnlyChanges [.sp, .pc, .stack] s u :=
    (hcall.append (hframe.append ((advance_onlyChanges t).append hretFrame))).mono (by decide)
  have husp' : u.sp.val + 1 = t.sp.val := husp
  have hspEq : u.sp = s.sp := by omega
  have hustack : u.stack = t.stack := hretFrame .stack (by decide)
  refine ⟨u, hexec, ?pc, hall.erase hspEq, fun k hk => ?slot⟩
  case pc =>
    calc u.pc = t.stack[t.sp] := hpc
      _ = c.stack[c.sp] := by simpa only [htsp] using hslots c.sp le_rfl
      _ = s.pc + 2 := htop
  case slot =>
    have hkval : k.val ≤ s.sp.val := hk
    have hne : k ≠ c.sp := fun h => by omega
    rw [hustack, hslots k (by show k.val ≤ c.sp.val; omega), hothers k hne]

/-- The calls to `targets`, then as many returns. -/
def nesting (targets : List Addr) : List Instr :=
  targets.map Instr.call ++ List.replicate targets.length .ret

/-- A nesting is a call, the nesting of the other targets, and a return. -/
theorem nesting_cons (nnn : Addr) (targets : List Addr) :
    nesting (nnn :: targets) = .call nnn :: (nesting targets ++ [.ret]) := by
  simp [nesting, List.replicate_succ']

theorem runInstrs_nesting (targets : List Addr) {s : State} (hrun : s.halt = 0)
    (hfree : s.sp.val + targets.length ≤ 15) :
    ∃ t, runInstrs (nesting targets) s = some t ∧ StackRestored s t ∧ (targets ≠ [] → t.pc = s.pc + 2) := by
  induction targets generalizing s with
  | nil => exact ⟨s, rfl, stackRestored_refl s, fun h => absurd rfl h⟩
  | cons nnn targets ih =>
    simp only [List.length_cons] at hfree
    obtain ⟨c, hcall, hsp, htop, hothers, hframe⟩ := advance_call (s := s) (by omega) nnn
    have hcrun : c.halt = 0 := Eq.trans (hframe .halt (by decide)) hrun
    obtain ⟨t, hnested, hrestored, -⟩ := ih hcrun (by omega)
    obtain ⟨u, hret, hpc, hback, hslots⟩ := advance_ret_restores hsp htop hothers hframe hrestored
    have hurun : u.halt = 0 := Eq.trans (hback .halt (by decide)) hrun
    refine ⟨u, ?run, ⟨hback, hslots⟩, fun _ => hpc⟩
    rw [nesting_cons, runInstrs_cons_of_next hcall hcrun, runInstrs_append, hnested, Option.bind_some,
      runInstrs_cons_of_next hret hurun]
    rfl

/-- Settles O26: by induction on the targets, the nesting inside a call leaves the caller's slot as the call wrote it,
so the last return goes to the address after the first CALL. -/
theorem nestedCallsAndReturnsRestore : Obligations.NestedCallsAndReturnsRestore := by
  intro targets s hne hrun hfree
  obtain ⟨t, hnesting, ⟨hframe, -⟩, hpc⟩ := runInstrs_nesting targets hrun hfree
  exact ⟨t, hnesting, hpc hne, hframe⟩

end Sys2Proof.Machine
end

section
/-! PROOF. Reset, launch and the steps of the environment (10_state.md R32, 60_exceptions.md R114 to R119,
70_reset_and_hazards.md R135), and the loader (R136). -/

namespace Sys2Proof.Machine

variable {s t : State} {rest : List EnvStep}

/-! ## Reset and launch -/

theorem inv_reset : Inv State.reset := by decide

/-- Settles O13: the state after reset meets the invariant, and a launch differs from it in MEM and KEY alone. -/
theorem invHoldsAtLaunch : Obligations.InvHoldsAtLaunch := by
  refine ⟨inv_reset, fun mem0 keys0 hwf => ?_⟩
  obtain ⟨-, hrest⟩ := inv_reset
  exact ⟨hwf, hrest⟩

/-- Settles O14: MEM and KEY are the launch parameters, and every other piece is as after reset. -/
theorem resetValues : Obligations.ResetValues := by
  intro mem0 keys0 s
  refine ⟨fun r => ?regs, rfl, rfl, rfl, fun k => ?slots, rfl, rfl, rfl, rfl, rfl, rfl, Frame.pixel_clear,
    fun _ => rfl, fun _ => rfl⟩
  case regs => exact Vector.getElem_replicate r.isLt
  case slots => exact Vector.getElem_replicate k.isLt

/-! ## A scheduled step that is settled -/

theorem setSchedule_onlyChanges (s : State) (l : List EnvStep) : OnlyChanges [.schedule] s (setSchedule l s) := by
  intro p hp; cases p <;> simp_all [Agree, readByte]

theorem nextAction_of_scheduled {e : EnvStep} (h : s.schedule = e :: rest) :
    nextAction s = envAction e (setSchedule rest s) := by
  simp only [nextAction, h]

theorem step_of_settled (h : nextAction s = .settled t) : step s = .next t := by
  simp only [step, h]

/-- A scheduled step that no Cycle is part of leaves the schedule and does what it does at once. -/
theorem step_of_scheduled {e : EnvStep} (h : s.schedule = e :: rest)
    (he : envAction e (setSchedule rest s) = .settled t) : step s = .next t :=
  step_of_settled ((nextAction_of_scheduled h).trans he)

/-! ## TimerTick (R114) -/

theorem tickDown_toNat (b : Byte) : (tickDown b).toNat = b.toNat - 1 := by
  unfold tickDown
  split <;> bv_omega

theorem timerTick_onlyChanges (s : State) : OnlyChanges [.dt, .st] s (timerTick s) :=
  (setDt_onlyChanges s _).append (setSt_onlyChanges _ _)

/-- Settles O15: each timer is ticked down by itself, and no other piece is written. -/
theorem timerTickCountsBothTimersDown : Obligations.TimerTickCountsBothTimersDown := by
  intro s rest hsched
  exact ⟨timerTick (setSchedule rest s), step_of_scheduled hsched rfl, tickDown_toNat s.dt, tickDown_toNat s.st, rfl,
    ((setSchedule_onlyChanges s rest).append (timerTick_onlyChanges _)).mono (by decide)⟩

/-! ## KeyEvent (R117) -/

theorem setKey_onlyChanges (s : State) (k : Key) (pressed : Bool) : OnlyChanges [.key] s (setKey k pressed s) := by
  intro p hp; cases p <;> simp_all [Agree, readByte]

@[simp] theorem keyDown_setKey (s : State) (k j : Key) (pressed : Bool) :
    keyDown (setKey k pressed s) j = if j = k then pressed else keyDown s j := by
  simp [keyDown, Vector.getElem_set, Fin.ext_iff, eq_comm]

/-- Settles O16: one write to KEY. -/
theorem keyEventSetsOneKey : Obligations.KeyEventSetsOneKey := by
  intro s k pressed rest hsched
  refine ⟨setKey k pressed (setSchedule rest s), step_of_scheduled hsched rfl, by simp, fun j hj => ?others, rfl,
    ((setSchedule_onlyChanges s rest).append (setKey_onlyChanges _ k pressed)).mono (by decide)⟩
  case others => rw [keyDown_setKey, if_neg hj]; rfl

/-! ## FrameRead (R119) -/

/-- Settles O17: what is read is FB itself, and the step leaves the schedule alone. -/
theorem frameReadChangesNothing : Obligations.FrameReadChangesNothing := by
  intro s rest hsched
  exact ⟨fun _ _ => rfl, setSchedule rest s, step_of_scheduled hsched rfl, rfl, setSchedule_onlyChanges s rest⟩

/-! ## Initialize (R135) -/

/-- The pieces Initialize writes: the Processor's registers and timers, the latches and UNK (R135;
92_eei_decisions.md D5, D19). -/
abbrev initialized : List Part :=
  [.v, .index, .pc, .sp, .stack, .dt, .st, .halt, .haltPc, .haltInfo, .unk]

theorem initializeProcessor_onlyChanges (s : State) : OnlyChanges initialized s (initializeProcessor s) := by
  intro p hp; cases p <;> simp_all [Agree, initializeProcessor, readByte]

/-- Settles O18: every piece that Initialize writes gets its reset value. -/
theorem initializeResetsTheProcessor : Obligations.InitializeResetsTheProcessor := by
  intro s rest hsched
  refine ⟨initializeProcessor (setSchedule rest s), step_of_scheduled hsched rfl, fun r => ?regs, rfl, rfl, rfl,
    fun k => ?slots, rfl, rfl, rfl, rfl, rfl, rfl, rfl,
    ((setSchedule_onlyChanges s rest).append (initializeProcessor_onlyChanges _)).mono (by decide)⟩
  case regs => exact Vector.getElem_replicate r.isLt
  case slots => exact Vector.getElem_replicate k.isLt

/-! ## The loader (R136) -/

/-- Bytes placed inside memory stand where they were placed, every other byte reads as before, and nothing but memory
changes. -/
theorem placeBytes_spec {a : Nat} {bytes : List Byte} (hwf : Memory.wf s.mem = true)
    (hfits : a + bytes.length ≤ Config.memSize) :
    let t := setMem (Memory.writeBytes s.mem a bytes) s
    Memory.wf t.mem = true ∧ (∀ k (h : k < bytes.length), readByte t (a + k) = bytes[k]) ∧
      (∀ c, c < a ∨ a + bytes.length ≤ c → readByte t c = readByte s c) ∧ OnlyChanges [.mem] s t :=
  ⟨Memory.wf_writeBytes hwf hfits, fun _ h => readByte_store_inside hwf hfits (List.getElem?_eq_getElem h),
    fun _ => readByte_store_outside hwf hfits, setMem_onlyChanges s _⟩

theorem loadImage_of_fits {image : List Byte} (h : image.length ≤ 3584) :
    loadImage image s = some (setMem (Memory.writeBytes s.mem 0x200 image) s) :=
  if_pos (decide_eq_true h)

theorem loadFont_of_fits {base : Nat} {glyphs : List Byte} (h : base + glyphs.length ≤ 0x200) :
    loadFont base glyphs s = some (setMem (Memory.writeBytes s.mem base glyphs) s) :=
  if_pos (decide_eq_true h)

/-- Settles O19: an image that fits ends at or below 4096 and a font block below 0x200, so both loads place their bytes
inside memory. -/
theorem loaderPlacesBytesVerbatim : Obligations.LoaderPlacesBytesVerbatim := by
  intro bytes base s hwf
  refine ⟨fun himage => ⟨_, loadImage_of_fits himage, placeBytes_spec hwf ?image⟩,
    fun hfont => ⟨_, loadFont_of_fits hfont, placeBytes_spec hwf ?font⟩⟩
  case image => simp only [Config.memSize]; omega
  case font => simp only [Config.memSize]; omega

end Sys2Proof.Machine
end

section
/-! PROOF. Three rules of every instruction: what it leaves in pc (10_state.md R18), when VF changes (R14, R29), and
that the sound timer takes no part in it (R22, 46_timers.md R115). -/

namespace Sys2Proof.Machine

variable {s t : State} {i : Instr}

/-! ## pc (R18) -/

/-- A next state whose pc is not that of `s` has HALT as in `s` and is as `q` says. -/
def AnswersMovingPc (q : State → Prop) (s : State) (r : Result) : Prop :=
  ∀ t, r = .next t → t.pc ≠ s.pc → t.halt = s.halt ∧ q t

theorem answersMovingPc_next {q : State → Prop} (hhalt : t.halt = s.halt) (hq : q t) :
    AnswersMovingPc q s (.next t) := by
  rintro u ⟨⟩ -
  exact ⟨hhalt, hq⟩

/-- An answer with the pc of `s` says nothing; a fault gives such an answer (92_eei_decisions.md D5). -/
theorem answersMovingPc_same (q : State → Prop) (hpc : t.pc = s.pc) : AnswersMovingPc q s (.next t) := by
  rintro u ⟨⟩ hmoved
  exact absurd hpc hmoved

theorem answersMovingPc_raised (q : State → Prop) (f : FatalFault) (info : Word) (s : State) :
    AnswersMovingPc q s (raised f info s) :=
  answersMovingPc_same q rfl

theorem answersMovingPc_skipIf (c : Bool) (s : State) :
    AnswersMovingPc (fun t => t.pc = s.pc + 2) s (.next (skipIf c s)) := by
  cases c
  · exact answersMovingPc_same _ rfl
  · exact answersMovingPc_next rfl rfl

theorem answersMovingPc_skipOnKey (x : Reg) (down : Bool) (s : State) :
    AnswersMovingPc (fun t => t.pc = s.pc + 2) s (skipOnKey x down s) := by
  obtain ⟨-, heq⟩ | ⟨k, -, heq⟩ := skipOnKey_cases x down s <;> rw [heq]
  · exact answersMovingPc_raised _ _ _ s
  · exact answersMovingPc_skipIf _ s

theorem answersMovingPc_execCall (nnn : Addr) (s : State) : AnswersMovingPc (fun _ => True) s (execCall nnn s) := by
  obtain ⟨-, heq⟩ | ⟨-, heq⟩ := execCall_cases nnn s <;> rw [heq]
  · exact answersMovingPc_raised _ _ _ s
  · exact answersMovingPc_next rfl trivial

theorem answersMovingPc_execRet (s : State) : AnswersMovingPc (fun _ => True) s (execRet s) := by
  obtain ⟨-, heq⟩ | ⟨-, heq⟩ := execRet_cases s <;> rw [heq]
  · exact answersMovingPc_raised _ _ _ s
  · exact answersMovingPc_next rfl trivial

theorem answersMovingPc_execLdVxK (x : Reg) (s : State) :
    AnswersMovingPc (fun t => t.pc = s.pc - 2) s (execLdVxK x s) := by
  obtain heq | ⟨b, heq⟩ := execLdVxK_cases x s <;> rw [heq]
  · exact answersMovingPc_next rfl rfl
  · exact answersMovingPc_same _ rfl

/-- Settles O54: an instruction that writes no pc leaves it, and each of the others moves it as its own rule says or
faults and leaves it. -/
theorem pcAfterEveryInstruction : Obligations.PcAfterEveryInstruction := by
  intro i s t hexec hpc
  cases i with
  | jp nnn | jpV0 nnn =>
    cases hexec
    exact ⟨rfl, .inl (.inr ⟨nnn, by simp⟩)⟩
  | call nnn =>
    obtain ⟨hhalt, -⟩ := answersMovingPc_execCall nnn s t hexec hpc
    exact ⟨hhalt, .inl (.inr ⟨nnn, by simp⟩)⟩
  | ret =>
    obtain ⟨hhalt, -⟩ := answersMovingPc_execRet s t hexec hpc
    exact ⟨hhalt, .inl (.inl rfl)⟩
  | seByte x nn | sneByte x nn =>
    obtain ⟨hhalt, hskip⟩ := answersMovingPc_skipIf _ s t hexec hpc
    exact ⟨hhalt, .inr (.inl ⟨⟨x, nn, by simp⟩, hskip⟩)⟩
  | seReg x y | sneReg x y =>
    obtain ⟨hhalt, hskip⟩ := answersMovingPc_skipIf _ s t hexec hpc
    exact ⟨hhalt, .inr (.inr (.inl ⟨⟨x, y, by simp⟩, hskip⟩))⟩
  | skp x | sknp x =>
    obtain ⟨hhalt, hskip⟩ := answersMovingPc_skipOnKey x _ s t hexec hpc
    exact ⟨hhalt, .inr (.inr (.inr (.inl ⟨⟨x, by simp⟩, hskip⟩)))⟩
  | ldVxK x =>
    obtain ⟨hhalt, hretry⟩ := answersMovingPc_execLdVxK x s t hexec hpc
    exact ⟨hhalt, .inr (.inr (.inr (.inr ⟨⟨x, rfl⟩, hretry⟩)))⟩
  | cls | ldByte | addByte | ldReg | orReg | andReg | xorReg | addReg | subReg | shr | subnReg | shl | ldI | rnd | drw
  | ldVxDt | ldDtVx | ldStVx | addIVx | ldFVx | ldBVx | ldMemVx | ldVxMem =>
    exact absurd (exec_onlyChanges hexec .pc (by simp [written])) hpc

/-! ## VF (R14, R29) -/

/-- Whatever next state is answered has VF as `s` has it, or is as `q` says. -/
def AnswersVf (q : State → Prop) (s : State) (r : Result) : Prop :=
  ∀ t, r = .next t → readReg t 15 ≠ readReg s 15 → q t

theorem answersVf_next {q : State → Prop} (h : readReg t 15 ≠ readReg s 15 → q t) : AnswersVf q s (.next t) := by
  rintro u ⟨⟩
  exact h

theorem answersVf_raised (q : State → Prop) (f : FatalFault) (info : Word) (s : State) :
    AnswersVf q s (raised f info s) :=
  answersVf_next fun h => absurd rfl h

/-- VF holds a flag. -/
def VfIsFlag (t : State) : Prop := readReg t 15 = 0 ∨ readReg t 15 = 1

theorem vfIsFlag_setReg (c : Bool) (s : State) : VfIsFlag (setReg 15 (flagByte c) s) := by
  cases c <;> simp [VfIsFlag, flagByte]

/-- A write to one register changes VF only when that register is VF. -/
theorem eq_15_of_setReg {x : Reg} {b : Byte} (h : readReg (setReg x b s) 15 ≠ readReg s 15) : x = 15 := by
  by_contra hx
  exact h (by simp [Ne.symm hx])

theorem answersVf_execDrw (x y : Reg) (n : Nibble) (s : State) : AnswersVf VfIsFlag s (execDrw x y n s) := by
  obtain ⟨-, heq⟩ | ⟨-, drawn, heq⟩ := execDrw_cases x y n s <;> rw [heq]
  · exact answersVf_raised _ _ _ s
  · exact answersVf_next fun _ => vfIsFlag_setReg _ _

theorem answersVf_execLdVxK (x : Reg) (s : State) : AnswersVf (fun _ => x = 15) s (execLdVxK x s) := by
  obtain heq | ⟨b, heq⟩ := execLdVxK_cases x s <;> rw [heq]
  · exact answersVf_next fun h => absurd rfl h
  · exact answersVf_next eq_15_of_setReg

/-- A block load of fewer than 16 registers has no byte for VF (43_memory_index.md R95). -/
theorem answersVf_execLdVxMem (x : Reg) (s : State) : AnswersVf (fun _ => x = 15) s (execLdVxMem x s) := by
  obtain ⟨-, heq⟩ | ⟨-, heq⟩ := execLdVxMem_cases x s <;> rw [heq]
  · exact answersVf_raised _ _ _ s
  · refine answersVf_next fun h => ?_
    by_contra hx
    have hshort : ¬(15 : Reg).val < x.val + 1 := fun (h15 : 15 < x.val + 1) => hx (Fin.ext (show x.val = 15 by omega))
    obtain ⟨hregs, -⟩ := writeRun_spec s (bytesFrom s (dataAddr s) (x.val + 1))
    exact h (by rw [hregs, getElem?_bytesFrom, if_neg hshort, Option.getD_none])

/-- Settles O55: an instruction that writes no register leaves VF; a flag writer writes VF last, with a flag; the others
write the one register they name, but for the block load. -/
theorem vfIsWrittenOnlyAsFlagOrDestination : Obligations.VfIsWrittenOnlyAsFlagOrDestination := by
  intro i s t hexec hvf
  cases i with
  | addReg x y | subReg x y | subnReg x y =>
    cases hexec
    exact .inl ⟨⟨x, y, by simp⟩, vfIsFlag_setReg _ _⟩
  | shr x | shl x =>
    cases hexec
    exact .inl ⟨⟨x, 0, by simp⟩, vfIsFlag_setReg _ _⟩
  | drw x y n => exact .inl ⟨⟨x, y, by simp⟩, answersVf_execDrw x y n s t hexec hvf⟩
  | ldByte x nn | addByte x nn | rnd x nn =>
    cases hexec
    have hx : x = 15 := eq_15_of_setReg hvf
    exact .inr (.inl ⟨nn, by simp [hx]⟩)
  | ldReg x y | orReg x y | andReg x y | xorReg x y =>
    cases hexec
    have hx : x = 15 := eq_15_of_setReg hvf
    exact .inr (.inr (.inl ⟨y, by simp [hx]⟩))
  | ldVxDt x =>
    cases hexec
    have hx : x = 15 := eq_15_of_setReg hvf
    exact .inr (.inr (.inr (.inl (by rw [hx]))))
  | ldVxK x =>
    have hx : x = 15 := answersVf_execLdVxK x s t hexec hvf
    exact .inr (.inr (.inr (.inr (.inl (by rw [hx])))))
  | ldVxMem x =>
    have hx : x = 15 := answersVf_execLdVxMem x s t hexec hvf
    exact .inr (.inr (.inr (.inr (.inr (by rw [hx])))))
  | cls | ret | jp | jpV0 | call | seByte | sneByte | seReg | sneReg | skp | sknp | ldI | ldDtVx | ldStVx | addIVx
  | ldFVx | ldBVx | ldMemVx =>
    have hv : t.v = s.v := exec_onlyChanges hexec .v (by simp [written])
    exact absurd (by simp only [readReg, hv]) hvf

/-! ## The sound timer (R22, R115) -/

/-- An answer with the value `b` in ST. -/
def Result.withSt (b : Byte) : Result → Result
  | .next t => .next (setSt b t)
  | r => r

theorem skipIf_setSt (c : Bool) (b : Byte) (s : State) : skipIf c (setSt b s) = setSt b (skipIf c s) := by
  cases c <;> rfl

theorem execCall_setSt (nnn : Addr) (b : Byte) (s : State) :
    execCall nnn (setSt b s) = Result.withSt b (execCall nnn s) := by
  unfold execCall
  show (if s.sp = 15 then _ else _) = _
  split <;> rfl

theorem execRet_setSt (b : Byte) (s : State) : execRet (setSt b s) = Result.withSt b (execRet s) := by
  unfold execRet
  show (if s.sp = 0 then _ else _) = _
  split <;> rfl

theorem skipOnKey_setSt (x : Reg) (down : Bool) (b : Byte) (s : State) :
    skipOnKey x down (setSt b s) = Result.withSt b (skipOnKey x down s) := by
  have hreg : readReg (setSt b s) x = readReg s x := rfl
  unfold skipOnKey
  rw [hreg]
  cases keyOfByte (readReg s x) with
  | none => rfl
  | some k => exact congrArg Host.Outcome.next (skipIf_setSt _ b s)

theorem storeAtIndex_setSt (bs : List Byte) (b : Byte) (s : State) :
    storeAtIndex bs (setSt b s) = Result.withSt b (storeAtIndex bs s) := by
  have hmem : memWrite (setSt b s).mem (dataAddr (setSt b s)) bs = memWrite s.mem (dataAddr s) bs := rfl
  unfold storeAtIndex
  rw [hmem]
  cases memWrite s.mem (dataAddr s) bs <;> rfl

theorem execLdVxMem_setSt (x : Reg) (b : Byte) (s : State) :
    execLdVxMem x (setSt b s) = Result.withSt b (execLdVxMem x s) := by
  have hmem : memRead (setSt b s).mem (dataAddr (setSt b s)) (x.val + 1) = memRead s.mem (dataAddr s) (x.val + 1) := rfl
  unfold execLdVxMem
  rw [hmem]
  cases memRead s.mem (dataAddr s) (x.val + 1) <;> rfl

theorem execDrw_setSt (x y : Reg) (n : Nibble) (b : Byte) (s : State) :
    execDrw x y n (setSt b s) = Result.withSt b (execDrw x y n s) := by
  have hmem : memRead (setSt b s).mem (dataAddr (setSt b s)) n.toNat = memRead s.mem (dataAddr s) n.toNat := rfl
  unfold execDrw
  rw [hmem]
  cases memRead s.mem (dataAddr s) n.toNat <;> rfl

theorem execLdVxK_setSt (x : Reg) (b : Byte) (s : State) :
    execLdVxK x (setSt b s) = Result.withSt b (execLdVxK x s) := by
  have hkey : leastKeyDown (setSt b s) = leastKeyDown s := rfl
  unfold execLdVxK
  rw [hkey]
  cases leastKeyDown s <;> rfl

/-- Every instruction but LD ST carries the value in ST along. -/
theorem exec_setSt (i : Instr) (hst : ∀ x, i ≠ .ldStVx x) (b : Byte) (s : State) :
    exec i (setSt b s) = Result.withSt b (exec i s) := by
  cases i with
  | seByte | sneByte | seReg | sneReg => exact congrArg Host.Outcome.next (skipIf_setSt _ b s)
  | call nnn => exact execCall_setSt nnn b s
  | ret => exact execRet_setSt b s
  | skp x | sknp x => exact skipOnKey_setSt x _ b s
  | ldBVx | ldMemVx => exact storeAtIndex_setSt _ b s
  | ldVxMem x => exact execLdVxMem_setSt x b s
  | drw x y n => exact execDrw_setSt x y n b s
  | ldVxK x => exact execLdVxK_setSt x b s
  | ldStVx x => exact absurd rfl (hst x)
  | cls | jp | jpV0 | ldByte | addByte | ldReg | orReg | andReg | xorReg | addReg | subReg | shr | subnReg | shl | ldI
  | rnd | ldVxDt | ldDtVx | addIVx | ldFVx => rfl

/-- Settles O56: an instruction other than LD ST carries ST along, and LD ST replaces it whatever it was. -/
theorem noInstructionReadsTheSoundTimer : Obligations.NoInstructionReadsTheSoundTimer := by
  intro i s t b hexec
  refine ⟨fun hst => ?carried, ?replaced⟩
  case carried => rw [exec_setSt i hst b s, hexec]; rfl
  case replaced => rintro x rfl; exact hexec

end Sys2Proof.Machine
end

section
/-! PROOF. Rules of the whole machine: what a step that answered can have been, and from that which steps reach which
pieces (10_state.md R21, R25, 20_memory.md R42) and what only Initialize undoes (60_exceptions.md R125,
70_reset_and_hazards.md R139). -/

namespace Sys2Proof.Machine

variable {s c t : State}

/-! ## What a step can have been -/

/-- A Cycle that acts on `c` comes to `t`: on a halted machine to `c` itself, else to the fetch fault, to the report of
an Unknown word, or to what the decoded instruction answers (60_exceptions.md R123). -/
inductive CycleComesTo (c : State) : State → Prop
  | halted (h : c.halt ≠ 0) : CycleComesTo c c
  | fetchFault (hrun : c.halt = 0) (hfetch : fetchWord c = none) : CycleComesTo c (raise .addressOutOfRange c.pc c.pc c)
  | unknown {w : Word} {g : Unknown} (hrun : c.halt = 0) (hfetch : fetchWord c = some w)
      (hdecode : decodeWord w = .error g) : CycleComesTo c (reportUnknown c.pc w (advance c))
  | executed {w : Word} {i : Instr} {t : State} (hrun : c.halt = 0) (hfetch : fetchWord c = some w)
      (hdecode : decodeWord w = .ok i) (hexec : exec i (advance c) = .next t) : CycleComesTo c t

/-- The environment's step `e`, which is no Cycle, takes `c` to `t`. -/
inductive EnvTakes (c : State) : EnvStep → State → Prop
  | timerTick : EnvTakes c .timerTick (timerTick c)
  | keyEvent (k : Key) (pressed : Bool) : EnvTakes c (.keyEvent k pressed) (keyEvent k pressed c)
  | frameRead : EnvTakes c .frameRead c
  | initializeProcessor : EnvTakes c .initializeProcessor (initializeProcessor c)

theorem cycleComesTo_of_step (hstart : CycleStarts s c) (hstep : step s = .next t) : CycleComesTo c t := by
  obtain ⟨hsettled, hexecutes⟩ := hstart.step_eq
  obtain ⟨h, heq⟩ | ⟨hrun, hfetch, heq⟩ | ⟨w, g, hrun, hfetch, hdecode, heq⟩ | ⟨w, i, hrun, hfetch, hdecode, heq⟩ :=
    cyclePhases_cases c
  case inl => cases (hsettled _ heq).symm.trans hstep; exact .halted h
  case inr.inl => cases (hsettled _ heq).symm.trans hstep; exact .fetchFault hrun hfetch
  case inr.inr.inl => cases (hsettled _ heq).symm.trans hstep; exact .unknown hrun hfetch hdecode
  case inr.inr.inr => exact .executed hrun hfetch hdecode ((hexecutes _ _ heq).symm.trans hstep)

/-- A step is a Cycle, or a step of the environment that is at the head of the schedule and leaves it. -/
theorem step_cases (hstep : step s = .next t) :
    (∃ c, CycleStarts s c ∧ CycleComesTo c t) ∨
      ∃ e rest, s.schedule = e :: rest ∧ EnvTakes (setSchedule rest s) e t := by
  have hcycle {c : State} (hstart : CycleStarts s c) : ∃ c, CycleStarts s c ∧ CycleComesTo c t :=
    ⟨c, hstart, cycleComesTo_of_step hstart hstep⟩
  cases hsched : s.schedule with
  | nil => exact .inl (hcycle (.inl ⟨hsched, rfl⟩))
  | cons e rest =>
    cases e with
    | cycle => exact .inl (hcycle (.inr ⟨rest, hsched, rfl⟩))
    | timerTick =>
      cases (step_of_scheduled hsched rfl).symm.trans hstep
      exact .inr ⟨_, rest, rfl, .timerTick⟩
    | keyEvent k pressed =>
      cases (step_of_scheduled hsched rfl).symm.trans hstep
      exact .inr ⟨_, rest, rfl, .keyEvent k pressed⟩
    | frameRead =>
      cases (step_of_scheduled hsched rfl).symm.trans hstep
      exact .inr ⟨_, rest, rfl, .frameRead⟩
    | initializeProcessor =>
      cases (step_of_scheduled hsched rfl).symm.trans hstep
      exact .inr ⟨_, rest, rfl, .initializeProcessor⟩

theorem CycleStarts.schedule_cases (h : CycleStarts s c) : s.schedule = [] ∨ ∃ rest, s.schedule = .cycle :: rest := by
  obtain ⟨hnil, -⟩ | ⟨rest, hcons, -⟩ := h
  · exact .inl hnil
  · exact .inr ⟨rest, hcons⟩

theorem CycleStarts.fetchWord_eq (h : CycleStarts s c) : fetchWord c = fetchWord s := by
  obtain ⟨-, rfl⟩ | ⟨rest, -, rfl⟩ := h <;> rfl

/-! ## What a Cycle leaves alone -/

/-- A piece that is none of pc, the latches, UNK and the reports is changed by a Cycle only when its instruction writes
it. -/
theorem CycleComesTo.agree_or_written (h : CycleComesTo c t) {p : Part}
    (hp : p ∉ [.pc, .unk, .reports] ++ latches) :
    Agree p c t ∨
      ∃ w i, c.halt = 0 ∧ fetchWord c = some w ∧ decodeWord w = .ok i ∧ p ∈ written i := by
  cases h with
  | halted => exact .inl (Agree.rfl_ p c)
  | fetchFault =>
    obtain ⟨-, -, -, hframe⟩ := raise_spec .addressOutOfRange c.pc c.pc c
    exact .inl (hframe.mono (fun q hq => List.mem_append_right _ hq) p hp)
  | @unknown w =>
    obtain ⟨-, -, hframe⟩ := reportUnknown_spec c.pc w (advance c)
    exact .inl (((advance_onlyChanges c).append hframe).mono (fun q hq => List.mem_append_left _ hq) p hp)
  | @executed w i _ hrun hfetch hdecode hexec =>
    by_cases hwritten : p ∈ written i
    · exact .inr ⟨w, i, hrun, hfetch, hdecode, hwritten⟩
    · have hpc : p ∉ [Part.pc] := fun h => hp (by simp_all)
      exact .inl ((advance_onlyChanges c p hpc).trans (exec_onlyChanges hexec p hwritten))

/-- A step that is a Cycle changes such a piece only on a running machine and by an instruction that writes it. -/
theorem CycleStarts.writer_of_changed (hstart : CycleStarts s c) (hcycle : CycleComesTo c t) {p : Part}
    (hp : p ∉ [.pc, .unk, .reports] ++ latches) (hsched : p ≠ .schedule) (hchanged : ¬Agree p s t) :
    s.halt = 0 ∧ ∃ w i, fetchWord s = some w ∧ decodeWord w = .ok i ∧ p ∈ written i := by
  have hsame : Agree p s c := hstart.onlyChanges p (by simpa using hsched)
  obtain hagree | ⟨w, i, hrun, hfetch, hdecode, hwritten⟩ := hcycle.agree_or_written hp
  · exact absurd (hsame.trans hagree) hchanged
  · exact ⟨hstart.halt_eq.symm.trans hrun, w, i, hstart.fetchWord_eq.symm.trans hfetch, hdecode, hwritten⟩

theorem CycleStarts.key_eq (hstart : CycleStarts s c) (hcycle : CycleComesTo c t) : t.key = s.key := by
  by_contra hkey
  obtain ⟨-, w, i, -, -, hwritten⟩ := hstart.writer_of_changed hcycle (p := .key) (by decide) (by decide) hkey
  obtain ⟨hkeyFree, -⟩ := environment_not_mem_written (i := i)
  exact hkeyFree hwritten

/-- Settles O57: a Cycle changes a timer only by the instruction that writes it and KEY by none, and the other steps
write the pieces of their own rules. -/
theorem onlyTheNamedStepsReachDevices : Obligations.OnlyTheNamedStepsReachDevices := by
  intro s t hstep
  obtain ⟨c, hstart, hcycle⟩ | ⟨e, rest, hsched, henv⟩ := step_cases hstep
  case inl =>
    have hcycles := hstart.schedule_cases
    refine ⟨fun h => absurd (hstart.key_eq hcycle) h, fun _ => hcycles, fun _ => ?registers, fun h => .inr ?dt,
      fun h => .inr ?st⟩
    case registers => exact hcycles.imp_right fun ⟨rest, hcons⟩ => ⟨rest, .inl hcons⟩
    case dt =>
      obtain ⟨hrun, w, i, hfetch, hdecode, hwritten⟩ :=
        hstart.writer_of_changed hcycle (p := .dt) (by decide) (by decide) h
      obtain ⟨x, rfl⟩ := dt_mem_written_iff.mp hwritten
      exact ⟨hrun, hcycles, w, x, hfetch, hdecode⟩
    case st =>
      obtain ⟨hrun, w, i, hfetch, hdecode, hwritten⟩ :=
        hstart.writer_of_changed hcycle (p := .st) (by decide) (by decide) h
      obtain ⟨x, rfl⟩ := st_mem_written_iff.mp hwritten
      exact ⟨hrun, hcycles, w, x, hfetch, hdecode⟩
  case inr =>
    cases henv with
    | timerTick =>
      exact ⟨fun h => by simp [timerTick] at h, fun h => by simp [timerTick] at h, fun h => by simp [timerTick] at h,
        fun _ => .inl ⟨rest, .inl hsched⟩, fun _ => .inl ⟨rest, .inl hsched⟩⟩
    | keyEvent k pressed =>
      exact ⟨fun _ => ⟨k, pressed, rest, hsched⟩, fun h => by simp [keyEvent] at h, fun h => by simp [keyEvent] at h,
        fun h => by simp [keyEvent] at h, fun h => by simp [keyEvent] at h⟩
    | frameRead =>
      exact ⟨fun h => by simp at h, fun h => by simp at h, fun h => by simp at h, fun h => by simp at h,
        fun h => by simp at h⟩
    | initializeProcessor =>
      exact ⟨fun h => by simp [initializeProcessor] at h, fun h => by simp [initializeProcessor] at h,
        fun _ => .inr ⟨rest, .inr hsched⟩, fun _ => .inl ⟨rest, .inr hsched⟩, fun _ => .inl ⟨rest, .inr hsched⟩⟩

/-! ## What lasts until Initialize -/

theorem CycleComesTo.eq_of_halted (h : CycleComesTo c t) (hhalted : c.halt ≠ 0) : t = c := by
  cases h with
  | halted => rfl
  | fetchFault hrun | unknown hrun | executed hrun => exact absurd hrun hhalted

theorem CycleComesTo.keeps_unk (h : CycleComesTo c t) (hunk : c.unk = true) : t.unk = true := by
  cases h with
  | halted | fetchFault => exact hunk
  | unknown => rfl
  | executed _ _ _ hexec =>
    obtain ⟨-, hunkFree, -, -⟩ := environment_not_mem_written
    exact Eq.trans (exec_onlyChanges hexec .unk hunkFree) hunk

/-- Settles O58: a Cycle of a halted machine leaves the state it acts on and no Cycle clears UNK, and a tick, a key
event and a frame read write none of these pieces. -/
theorem onlyInitializeLeavesTheHaltedState : Obligations.OnlyInitializeLeavesTheHaltedState := by
  intro s t hstep hnotInit
  obtain ⟨c, hstart, hcycle⟩ | ⟨e, rest, hsched, henv⟩ := step_cases hstep
  case inl =>
    have hsame : OnlyChanges [.schedule] s c := hstart.onlyChanges
    have hunkEq : c.unk = s.unk := hsame .unk (by decide)
    refine ⟨fun hhalted => ?latched, fun hunk => hcycle.keeps_unk (hunkEq.trans hunk)⟩
    rw [hcycle.eq_of_halted (hstart.halt_eq.trans_ne hhalted)]
    exact ⟨hstart.halt_eq, hsame .haltPc (by decide), hsame .haltInfo (by decide), hstart.pc_eq, hsame .v (by decide)⟩
  case inr =>
    cases henv with
    | timerTick | keyEvent | frameRead => exact ⟨fun _ => ⟨rfl, rfl, rfl, rfl, rfl⟩, id⟩
    | initializeProcessor => exact absurd hsched (hnotInit rest)

end Sys2Proof.Machine
end
